-- ==== Sys2Proof/Config.lean ====
section
/-! DEFINITION. The parameters of the block (spec/00_scope.md R7): every one has a fixed value, none is an argument
of the model, and no output is ever undefined, so there is no free value here. The widths are those of the port types
in Word.lean; the sizes of the ports' domains stand here. -/

namespace Sys2Proof.Config

/-- R7: "number of operations", KSIM's two functions Add and Subtract. -/
abbrev numberOfOps : Nat := 2

/-- R7: "number of modes", Binary and Decimal. -/
abbrev numberOfModes : Nat := 2

/-- R7: "carry-in width: 1 bit, value 0 or 1". -/
abbrev carryInValues : Nat := 2

/-- R7: "data width: 8 bits, unsigned 0..255". -/
abbrev byteValues : Nat := 256

end Sys2Proof.Config
end

