-- ==== Sys2Proof/Word.lean ====
section
/-! DEFINITION. The data the ports carry: KSIM's data model lists Byte, FlagState and Mode (spec/10_state.md R32),
and R21 and R22 give the five input and the five output ports. -/

namespace Sys2Proof

/-- R7: "an unsigned 8-bit quantity (0–255), the accumulator value, the operand, and the result". -/
abbrev Byte := BitVec 8

/-- R57: the five input ports packed into one word, `REQ = op, mode, cin, a, operand` from bit 18 down. -/
abbrev ReqWord := BitVec 19

/-- R58: the five output ports packed into one word, `RSP = N, V, Z, C, result` from bit 11 down. -/
abbrev RspWord := BitVec 12

/-- R21, port `op`: the choice between KSIM's two functions. -/
inductive Op where
  | add
  | subtract
  deriving DecidableEq, Repr

/-- R21, port `mode`: "selecting whether decimal correction applies". -/
inductive Mode where
  | binary
  | decimal
  deriving DecidableEq, Repr

/-- R21, R56: a request is the five input ports taken together. -/
structure Request where
  op      : Op
  mode    : Mode
  cin     : Bool
  a       : Byte
  operand : Byte
  deriving DecidableEq, Repr

/-- R22, R56: a response is the five output ports taken together. Flags are Booleans, true is 1 (R11). -/
structure Response where
  result : Byte
  N      : Bool
  V      : Bool
  Z      : Bool
  C      : Bool
  deriving DecidableEq, Repr

end Sys2Proof
end

