-- ==== Sys2Proof/Syntax.lean ====
section
/-! DEFINITION. The four operations, one constructor per row of spec/opcode_table.json (spec/30_encoding.md R59),
and a caller's call in plain numbers. -/

namespace Sys2Proof

/-- R59, R65: the operations in the operand order of `MNEMONIC a, operand, cin`. -/
inductive Instr where
  /-- `ADD.BIN`: Add, Binary mode (R76). -/
  | addBin (a operand : Byte) (cin : Bool)
  /-- `ADD.DEC`: Add, Decimal mode (R80). -/
  | addDec (a operand : Byte) (cin : Bool)
  /-- `SUB.BIN`: Subtract, Binary mode (R91). -/
  | subBin (a operand : Byte) (cin : Bool)
  /-- `SUB.DEC`: Subtract, Decimal mode (R95). -/
  | subDec (a operand : Byte) (cin : Bool)
  deriving DecidableEq, Repr

/-- R63: a call as a caller with argument types wider than the ports may make it, every port a natural number. It may
lie outside the ports' domains; `Call.wellFormed` says when it does not. -/
structure Call where
  op      : Nat
  mode    : Nat
  cin     : Nat
  a       : Nat
  operand : Nat
  deriving DecidableEq, Repr

end Sys2Proof
end

