-- ==== Sys2Proof/WellFormed.lean ====
section
/-! DEFINITION. The domains of the five input ports (spec/10_state.md R21). An `Instr` and a `Request` have exactly
the ports' types, so they have nothing to refuse (spec/30_encoding.md R63); a `Call` in naturals can lie outside. -/

namespace Sys2Proof

/-- R21, R63: every argument lies in its port's domain; anything else is the caller's contract violation. -/
def Call.wellFormed (c : Call) : Bool :=
  decide (c.op < Config.numberOfOps) && decide (c.mode < Config.numberOfModes) &&
    decide (c.cin < Config.carryInValues) && decide (c.a < Config.byteValues) &&
    decide (c.operand < Config.byteValues)

/-- The call that an operation is, with the codes of R59 (`op` 0 = Add, 1 = Subtract; `mode` 0 = Binary, 1 = Decimal). -/
def Instr.toCall : Instr → Call
  | .addBin a operand cin => ⟨0, 0, cin.toNat, a.toNat, operand.toNat⟩
  | .addDec a operand cin => ⟨0, 1, cin.toNat, a.toNat, operand.toNat⟩
  | .subBin a operand cin => ⟨1, 0, cin.toNat, a.toNat, operand.toNat⟩
  | .subDec a operand cin => ⟨1, 1, cin.toNat, a.toNat, operand.toNat⟩

/-- R62, R63: an operation is well-formed when its ports lie in their domains. Every one is (`Laws.WellFormed`):
"all 2^19 request words are legal". -/
def Instr.wellFormed (i : Instr) : Bool := i.toCall.wellFormed

end Sys2Proof
end

