-- ==== Sys2Proof/Decode.lean ====
section
/-! DEFINITION. From bits to an operation and back (spec/30_encoding.md R57 to R61, R63), the packed response (R58),
and the textual forms (R65, R66). -/

namespace Sys2Proof

/-! ### The codes of `op` and `mode` (R57, R59) -/

/-- `op`: 0 = Add, 1 = Subtract. -/
def opOfBit (b : Bool) : Op := if b then .subtract else .add

def opBit : Op → Bool
  | .add      => false
  | .subtract => true

/-- `mode`: 0 = Binary, 1 = Decimal. -/
def modeOfBit (b : Bool) : Mode := if b then .decimal else .binary

def modeBit : Mode → Bool
  | .binary  => false
  | .decimal => true

/-! ### The request word `REQ` and the five ports (R57, R60) -/

/-- R57: `REQ[18]` is `op`, `REQ[17]` is `mode`, `REQ[16]` is `cin`, `REQ[15:8]` is `a`, `REQ[7:0]` is `operand`. -/
def requestOfWord (w : ReqWord) : Request where
  op      := opOfBit (w.getLsbD 18)
  mode    := modeOfBit (w.getLsbD 17)
  cin     := w.getLsbD 16
  a       := w.extractLsb' 8 8
  operand := w.extractLsb' 0 8

/-- R57: the five ports concatenated, `op` in the most significant position. -/
def wordOfRequest (r : Request) : ReqWord :=
  BitVec.ofBool (opBit r.op) ++ BitVec.ofBool (modeBit r.mode) ++ BitVec.ofBool r.cin ++ r.a ++ r.operand

/-! ### The operation map (R59) -/

/-- R59: the operation is selected by `op` and `mode` and by nothing else; the other ports are its operands. -/
def instrOfRequest (r : Request) : Instr :=
  match r.op, r.mode with
  | .add,      .binary  => .addBin r.a r.operand r.cin
  | .add,      .decimal => .addDec r.a r.operand r.cin
  | .subtract, .binary  => .subBin r.a r.operand r.cin
  | .subtract, .decimal => .subDec r.a r.operand r.cin

def requestOfInstr : Instr → Request
  | .addBin a operand cin => ⟨.add, .binary, cin, a, operand⟩
  | .addDec a operand cin => ⟨.add, .decimal, cin, a, operand⟩
  | .subBin a operand cin => ⟨.subtract, .binary, cin, a, operand⟩
  | .subDec a operand cin => ⟨.subtract, .decimal, cin, a, operand⟩

/-- R59: the decoder is total, every 19-bit word is exactly one of the four operations. -/
def decode (w : ReqWord) : Instr := instrOfRequest (requestOfWord w)

/-- R57, R61: the request word of an operation. -/
def encode (i : Instr) : ReqWord := wordOfRequest (requestOfInstr i)

/-! ### Numbers wider than the ports (R63) -/

/-- Why a number is not read as a request. -/
inductive DecodeReject where
  /-- R63, R132: a port outside its domain, the caller's contract violation, rejected at the boundary and never
  reduced modulo the port's range. Raised for a call or a number that is no 19-bit request. Safe. -/
  | contractViolation
  deriving DecidableEq, Repr

/-- R63: a call in naturals becomes a request when every argument lies in its domain; otherwise it is rejected. -/
def requestOfCall (c : Call) : Except DecodeReject Request :=
  if c.wellFormed then
    .ok { op := opOfBit (c.op == 1), mode := modeOfBit (c.mode == 1), cin := c.cin == 1,
          a := BitVec.ofNat 8 c.a, operand := BitVec.ofNat 8 c.operand }
  else .error .contractViolation

/-- R57: the ports of a number `op * 2^18 + mode * 2^17 + cin * 2^16 + a * 256 + operand`. Whatever lies above bit 18
stays in `op`, so that a number of 2^19 or more is outside the domain and is not coerced. -/
def callOfNumber (w : Nat) : Call where
  op      := w / 2 ^ 18
  mode    := w / 2 ^ 17 % 2
  cin     := w / 2 ^ 16 % 2
  a       := w / 2 ^ 8 % 2 ^ 8
  operand := w % 2 ^ 8

/-- R57, R63: the request that a number is. -/
def requestOfNumber (w : Nat) : Except DecodeReject Request := requestOfCall (callOfNumber w)

/-- R57, R59, R63: the operation that a number is. -/
def decodeNumber (w : Nat) : Except DecodeReject Instr :=
  match requestOfNumber w with
  | .ok r    => .ok (instrOfRequest r)
  | .error e => .error e

/-- The operation of a row of the opcode table given as a number of `nbits` bits. A request is one word of 19 bits,
numbered as the table numbers it; the bits of the last whole byte above bit 18 belong to no port and must be zero. -/
def decodeTableWord (_nbits w : Nat) : Option Instr :=
  match decodeNumber w with
  | .ok i    => some i
  | .error _ => none

/-! ### The response word `RSP` (R58) -/

/-- R58: `RSP[11]` is N, `RSP[10]` V, `RSP[9]` Z, `RSP[8]` C, `RSP[7:0]` is `result`. -/
def wordOfResponse (r : Response) : RspWord :=
  BitVec.ofBool r.N ++ BitVec.ofBool r.V ++ BitVec.ofBool r.Z ++ BitVec.ofBool r.C ++ r.result

def responseOfWord (w : RspWord) : Response where
  result := w.extractLsb' 0 8
  N      := w.getLsbD 11
  V      := w.getLsbD 10
  Z      := w.getLsbD 9
  C      := w.getLsbD 8

/-- R58: the four flag bits alone, `flags[3:0] = N, V, Z, C = RSP[11:8]`. -/
def flagBits (r : Response) : BitVec 4 := (wordOfResponse r).extractLsb' 8 4

/-! ### Textual forms (R65, R66). Spacing and digits as in the spec's examples (log entry 8). -/

/-- The name of an operation in spec/opcode_table.json (R59). -/
def mnemonic : Instr → List Char
  | .addBin _ _ _ => ['A', 'D', 'D', '.', 'B', 'I', 'N']
  | .addDec _ _ _ => ['A', 'D', 'D', '.', 'D', 'E', 'C']
  | .subBin _ _ _ => ['S', 'U', 'B', '.', 'B', 'I', 'N']
  | .subDec _ _ _ => ['S', 'U', 'B', '.', 'D', 'E', 'C']

def hexDigit (n : Nat) : Char :=
  if n < 10 then Char.ofNat (48 + n) else Char.ofNat (55 + n)

/-- A byte as KSIM writes it, `0x` and two hexadecimal digits. -/
def byteText (x : Byte) : List Char := ['0', 'x', hexDigit (x.toNat / 16), hexDigit (x.toNat % 16)]

def bitText (b : Bool) : List Char := [if b then '1' else '0']

def boolText (b : Bool) : List Char :=
  if b then ['t', 'r', 'u', 'e'] else ['f', 'a', 'l', 's', 'e']

/-- R65: `MNEMONIC a, operand, cin`, for example `ADD.DEC 0x79, 0x01, 0`. -/
def mnemonicText (i : Instr) : List Char :=
  let r := requestOfInstr i
  mnemonic i ++ [' '] ++ byteText r.a ++ [',', ' '] ++ byteText r.operand ++ [',', ' '] ++ bitText r.cin

/-- R65: KSIM's call, for example `Add(0x79, 0x01, 0, Decimal)`. -/
def callText (i : Instr) : List Char :=
  let r := requestOfInstr i
  let function : List Char :=
    match r.op with
    | .add      => ['A', 'd', 'd']
    | .subtract => ['S', 'u', 'b', 't', 'r', 'a', 'c', 't']
  let modeWord : List Char :=
    match r.mode with
    | .binary  => ['B', 'i', 'n', 'a', 'r', 'y']
    | .decimal => ['D', 'e', 'c', 'i', 'm', 'a', 'l']
  function ++ ['('] ++ byteText r.a ++ [',', ' '] ++ byteText r.operand ++ [',', ' '] ++ bitText r.cin ++
    [',', ' '] ++ modeWord ++ [')']

/-- R66: this spec's form of a response, for example `result=0x00 N=0 V=0 Z=1 C=0`. -/
def responseText (r : Response) : List Char :=
  ['r', 'e', 's', 'u', 'l', 't', '='] ++ byteText r.result ++ [' ', 'N', '='] ++ bitText r.N ++
    [' ', 'V', '='] ++ bitText r.V ++ [' ', 'Z', '='] ++ bitText r.Z ++ [' ', 'C', '='] ++ bitText r.C

/-- R66: KSIM's form of a flag record, its four fields between braces (character codes 123 and 125). -/
def flagsText (r : Response) : List Char :=
  [Char.ofNat 123] ++ ['n', 'e', 'g', 'a', 't', 'i', 'v', 'e', ':'] ++ boolText r.N ++
    [',', ' ', 'o', 'v', 'e', 'r', 'f', 'l', 'o', 'w', ':'] ++ boolText r.V ++
    [',', ' ', 'z', 'e', 'r', 'o', ':'] ++ boolText r.Z ++
    [',', ' ', 'c', 'a', 'r', 'r', 'y', ':'] ++ boolText r.C ++ [Char.ofNat 125]

end Sys2Proof
end

