-- ==== Sys2Proof/Machine/State.lean ====
section
/-! DEFINITION. The state, the fault and refusal reasons, and the state before the first request. -/

namespace Sys2Proof.Machine

/-- THE BLOCK HOLDS NO STATE (spec/10_state.md R20, R34): what stands here is the caller's side of its ports, the two
sequences a run consists of (spec/60_exceptions.md R145). Log entry 1. -/
structure State where
  /-- The requests the caller has still to present on the five input ports (R21), the next one first. -/
  requests  : List Request
  /-- The responses the caller has taken from the five output ports (R22), the oldest first. No step reads them. -/
  responses : List Response
  deriving DecidableEq, Repr

/-- R130: "The list of exception causes is empty." The block cannot fault, so no fault can be written down. -/
inductive Fault where
  deriving DecidableEq, Repr

/-- Refusals. The block itself refuses nothing (R145); both are raised outside an evaluation. -/
inductive Refusal where
  /-- An operation of the table without a meaning, raised by `exec`'s arms only. No arm raises it. Safe. -/
  | notModelled (mnemonic : String)
  /-- R63, R132: a call with an argument outside its port's domain, refused at the boundary by `present` before any
  evaluation; it has no cause code and is no state of the block. Safe: a refused call proves nothing. -/
  | contractViolation
  deriving DecidableEq, Repr

/-- R35, R150, R151: there is no state to reset; "before the first request there is no response". Log entry 2. -/
def State.reset : State where
  requests  := []
  responses := []

end Sys2Proof.Machine
end

