-- ==== Sys2Proof/Machine/Operands.lean ====
section
/-! DEFINITION. How the operation rules read their operands: bits, signs, nibbles and truncation on unbounded integers
(spec/00_scope.md R8 to R11, spec/30_encoding.md R60), and the packed-BCD reading of a byte (R41, R118). -/

namespace Sys2Proof.Machine

/-- R8: `bit(v, i) = (v div 2^i) mod 2`, of a non-negative integer. -/
def bit (v i : Nat) : Bool := v / 2 ^ i % 2 == 1

/-- R9: `v mod 256`, the Euclidean remainder, as the byte that leaves on `result`. -/
def truncate (v : Int) : Byte := BitVec.ofNat 8 (v % 256).toNat

/-- R10: `sign(v) = bit(v mod 256, 7)`, for an intermediate wider than a byte. -/
def sign (v : Int) : Bool := bit (v % 256).toNat 7

/-- R8: bit 7, the sign bit of a byte. -/
def byteSign (x : Byte) : Bool := bit x.toNat 7

/-- R60: `x & 0xF`, the low nibble as an integer 0..15. -/
def lowNibble (x : Byte) : Nat := x.toNat &&& 0xF

/-- R60: `x & 0xF0`, the high nibble left in place, a multiple of 16 in 0..240. -/
def highNibbleInPlace (x : Byte) : Nat := x.toNat &&& 0xF0

/-- R60: `cin` as the integer 0 or 1. -/
def carryNumber (cin : Bool) : Nat := if cin then 1 else 0

/-- R106: a byte read as a two's-complement number -128..127. -/
def signedValue (x : Byte) : Int := if x.toNat < 128 then x.toNat else (x.toNat : Int) - 256

/-- R41: both nibbles are decimal digits. There are 100 such bytes. -/
def validBcd (x : Byte) : Bool := decide (x.toNat / 16 ≤ 9) && decide (x.toNat % 16 ≤ 9)

/-- R118: `dec(x) = 10 * x[7:4] + x[3:0]`. -/
def dec (x : Byte) : Nat := 10 * (x.toNat / 16) + x.toNat % 16

/-- R118: `bcd(n) = 16 * (n div 10) + (n mod 10)`, for n in 0..99. -/
def bcd (n : Nat) : Byte := BitVec.ofNat 8 (16 * (n / 10) + n % 10)

end Sys2Proof.Machine
end

