-- ==== Sys2Proof/Machine/Flags.lean ====
section
/-! DEFINITION. The flag computations (spec/10_state.md R25 to R29). Every operation computes all four afresh, and no
operation reads one. -/

namespace Sys2Proof.Machine

/-- R25: `N <- bit(result, 7)`, of the final result. -/
def flagN (result : Byte) : Bool := byteSign result

/-- R26: `Z <- b(result == 0)`, of the final result. -/
def flagZ (result : Byte) : Bool := result == 0

/-- R76 (6), R80 (4): overflow of Add, same-sign operands and a different sign out. `signOut` is the sign of the result
in `ADD.BIN` and of the intermediate `hi` in `ADD.DEC`. -/
def flagVAdd (a operand : Byte) (signOut : Bool) : Bool :=
  byteSign a == byteSign operand && signOut != byteSign a

/-- R91 (2), R95 (2): overflow of Subtract, from the uncorrected difference, in both modes. -/
def flagVSub (a operand : Byte) (wide0 : Int) : Bool :=
  sign wide0 != byteSign a && byteSign operand != byteSign a

/-- R76 (2), R80 (6): carry of Add, the sum (`hi` corrected, in `ADD.DEC`) does not fit in 8 bits. -/
def flagCAdd (sum : Nat) : Bool := decide (sum > 0xFF)

/-- R91 (4), R93, R95 (4): carry of Subtract, no borrow occurred, from the uncorrected difference, in both modes. -/
def flagCSub (wide0 : Int) : Bool := decide (wide0 ≥ 0)

/-- The response of a result with its N and Z, and the V and C of the operation (R75, R90). -/
def responseWith (result : Byte) (v c : Bool) : Response where
  result := result
  N      := flagN result
  V      := v
  Z      := flagZ result
  C      := c

end Sys2Proof.Machine
end

