-- ==== Sys2Proof/Machine/Ops.lean ====
section
/-! DEFINITION. The operations over State: the caller presents a request, the step takes it, a response is delivered.
The block has no memory and no registers to read or write (spec/20_memory.md R40, spec/10_state.md R23), takes no
exception and returns from none (spec/60_exceptions.md R135, R136). -/

namespace Sys2Proof.Machine

/-- The next request on the input ports, and the state in which it has been taken; none when the caller presents
nothing (R151: "before the first request there is no response"). -/
def takeRequest (s : State) : Option (Request × State) :=
  match s.requests with
  | []      => none
  | r :: rs => some (r, { s with requests := rs })

/-- R22: an evaluation drives all five outputs; the caller takes them as one response (R43, R152). -/
def deliver (r : Response) (s : State) : State := { s with responses := s.responses ++ [r] }

/-- The caller presents a request, after those it has presented before. -/
def enqueue (r : Request) (s : State) : State := { s with requests := s.requests ++ [r] }

/-- R63, R132: the boundary of a caller with wider types. A call outside the ports' domains is refused before any
evaluation, and nothing is coerced; another is presented as a request. -/
def present (c : Call) (s : State) : Host.Outcome State Fault Refusal :=
  match requestOfCall c with
  | .ok r    => .next (enqueue r s)
  | .error _ => .refused .contractViolation

end Sys2Proof.Machine
end

