-- ==== Sys2Proof/Machine/Add.lean ====
section
/-! DEFINITION. The Add family (spec/40_add.md). -/

namespace Sys2Proof.Machine

/-! ### `ADD.BIN` (R76) -/

/-- R76 (1): `wide = a + operand + cin`, an integer in 0..511, no truncation yet. -/
def addBinWide (a operand : Byte) (cin : Bool) : Nat := a.toNat + operand.toNat + carryNumber cin

/-- R76. V is taken from the result, not from the widened value (R78). -/
def addBinResponse (a operand : Byte) (cin : Bool) : Response :=
  let wide := addBinWide a operand cin
  let result := truncate wide
  responseWith result (flagVAdd a operand (byteSign result)) (flagCAdd wide)

/-- `ADD.BIN a, operand, cin` (R76): the response, and nothing else is written. -/
def execAddBin (a operand : Byte) (cin : Bool) (s : State) : Host.Outcome State Fault Refusal :=
  .next (deliver (addBinResponse a operand cin) s)

/-! ### `ADD.DEC` (R80), one definition per step; R79 gives the amount 0x10 of step (3) -/

/-- R80 (1): `lo`, an integer in 0..31. -/
def addDecLow (a operand : Byte) (cin : Bool) : Nat := lowNibble a + lowNibble operand + carryNumber cin

/-- R80 (2): `hi`, a multiple of 16 in 0..0x1E0. -/
def addDecHigh (a operand : Byte) : Nat := highNibbleInPlace a + highNibbleInPlace operand

/-- R80 (3): the decimal carry out of the low nibble. -/
def addDecHalfCarry (a operand : Byte) (cin : Bool) : Bool := decide (addDecLow a operand cin > 9)

/-- R80 (3): `lo` after the low-nibble correction. -/
def addDecLowCorrected (a operand : Byte) (cin : Bool) : Nat :=
  if addDecHalfCarry a operand cin then addDecLow a operand cin + 6 else addDecLow a operand cin

/-- R79, R80 (3), R81: `hi` with the carry of weight 0x10 from the low nibble, as it stands when V is taken. -/
def addDecHighAtV (a operand : Byte) (cin : Bool) : Nat :=
  if addDecHalfCarry a operand cin then addDecHigh a operand + 0x10 else addDecHigh a operand

/-- R80 (5): `hi` after the high-nibble correction, at most 0x250. -/
def addDecHighCorrected (a operand : Byte) (cin : Bool) : Nat :=
  let hi := addDecHighAtV a operand cin
  if hi > 0x90 then hi + 0x60 else hi

/-- R80 (7): the low nibble of `lo` and the high nibble of `hi`, their other bits discarded. -/
def addDecResult (a operand : Byte) (cin : Bool) : Byte :=
  BitVec.ofNat 8 ((addDecLowCorrected a operand cin &&& 0xF) ||| (addDecHighCorrected a operand cin &&& 0xF0))

/-- R80: N and Z from the corrected byte (R85), V from `hi` between the corrections (R81, R82), C from the corrected
`hi` (R83). -/
def addDecResponse (a operand : Byte) (cin : Bool) : Response :=
  responseWith (addDecResult a operand cin)
    (flagVAdd a operand (sign (addDecHighAtV a operand cin)))
    (flagCAdd (addDecHighCorrected a operand cin))

/-- `ADD.DEC a, operand, cin` (R80), for any bytes, valid packed BCD or not (R84). -/
def execAddDec (a operand : Byte) (cin : Bool) (s : State) : Host.Outcome State Fault Refusal :=
  .next (deliver (addDecResponse a operand cin) s)

end Sys2Proof.Machine
end

