-- ==== Sys2Proof/Machine/Subtract.lean ====
section
/-! DEFINITION. The Subtract family (spec/41_subtract.md). -/

namespace Sys2Proof.Machine

/-- R90, R91 (1), R95 (1): the uncorrected difference `wide0 = a - operand + cin - 1`, an integer in -256..255 that
does not wrap. -/
def subWide0 (a operand : Byte) (cin : Bool) : Int :=
  (a.toNat : Int) - operand.toNat + carryNumber cin - 1

/-! ### `SUB.BIN` (R91) -/

/-- R91: the difference truncated to a byte. -/
def subBinResponse (a operand : Byte) (cin : Bool) : Response :=
  let wide0 := subWide0 a operand cin
  responseWith (truncate wide0) (flagVSub a operand wide0) (flagCSub wide0)

/-- `SUB.BIN a, operand, cin` (R91). -/
def execSubBin (a operand : Byte) (cin : Bool) (s : State) : Host.Outcome State Fault Refusal :=
  .next (deliver (subBinResponse a operand cin) s)

/-! ### `SUB.DEC` (R95) -/

/-- R95 (3a): the low-nibble probe `lo`, an integer in -16..15, from the original nibbles and `cin` only (R96). -/
def subDecLowProbe (a operand : Byte) (cin : Bool) : Int :=
  (lowNibble a : Int) - lowNibble operand + carryNumber cin - 1

/-- R95 (3b), R96: the two corrections, each triggered by an uncorrected quantity and independent of the other. -/
def subDecWide (a operand : Byte) (cin : Bool) : Int :=
  subWide0 a operand cin
    - (if subWide0 a operand cin < 0 then 0x60 else 0)
    - (if subDecLowProbe a operand cin < 0 then 6 else 0)

/-- R95, R97: the corrected byte with its N and Z; V and C ignore the correction. -/
def subDecResponse (a operand : Byte) (cin : Bool) : Response :=
  let wide0 := subWide0 a operand cin
  responseWith (truncate (subDecWide a operand cin)) (flagVSub a operand wide0) (flagCSub wide0)

/-- `SUB.DEC a, operand, cin` (R95), for any bytes, valid packed BCD or not (R98). -/
def execSubDec (a operand : Byte) (cin : Bool) (s : State) : Host.Outcome State Fault Refusal :=
  .next (deliver (subDecResponse a operand cin) s)

end Sys2Proof.Machine
end

