-- ==== Sys2Proof/Machine/Dispatch.lean ====
section
/-! DEFINITION. The meaning of each operation (spec/30_encoding.md R59). -/

namespace Sys2Proof.Machine

def exec (i : Instr) (s : State) : Host.Outcome State Fault Refusal :=
  match i with
  | .addBin a operand cin => Sys2Proof.Machine.execAddBin a operand cin s
  | .addDec a operand cin => Sys2Proof.Machine.execAddDec a operand cin s
  | .subBin a operand cin => Sys2Proof.Machine.execSubBin a operand cin s
  | .subDec a operand cin => Sys2Proof.Machine.execSubDec a operand cin s

end Sys2Proof.Machine
end

