-- ==== Sys2Proof/Machine/Step.lean ====
section
/-! DEFINITION. One step: one evaluation (spec/00_scope.md R14). -/

namespace Sys2Proof.Machine

/-- R14, R145: the next request of the caller is evaluated and its response delivered. Where the caller presents
nothing, there is no evaluation and nothing changes (log entry 3). -/
def step (s : State) : Host.Outcome State Fault Refusal :=
  match takeRequest s with
  | none         => .next s
  | some (r, s') => exec (instrOfRequest r) s'

/-- The caller presents the request that the number `w` is, before those it has still to present. A number that is no
19-bit request is rejected at the boundary and presents nothing (R63). Log entry 4. -/
def State.withFetchWord (s : State) (_nbits w : Nat) : State :=
  match requestOfNumber w with
  | .ok r    => { s with requests := r :: s.requests }
  | .error _ => s

end Sys2Proof.Machine
end

