-- ==== Sys2Proof/Machine/Eval.lean ====
section
/-! DEFINITION. The block as a function, without any state: `eval : Request → Response` (spec/00_scope.md R2,
spec/60_exceptions.md R145). -/

namespace Sys2Proof.Machine

/-- The response of an operation (R76, R80, R91, R95). -/
def respond : Instr → Response
  | .addBin a operand cin => addBinResponse a operand cin
  | .addDec a operand cin => addDecResponse a operand cin
  | .subBin a operand cin => subBinResponse a operand cin
  | .subDec a operand cin => subDecResponse a operand cin

/-- R2, R14, R145: one evaluation, the total function from a request to its response. -/
def eval (r : Request) : Response := respond (instrOfRequest r)

end Sys2Proof.Machine
end

