-- ==== Sys2Proof/Machine/Chain.lean ====
section
/-! DEFINITION. The caller's side of multi-byte arithmetic: chains (spec/20_memory.md R52, spec/42_arithmetic_laws.md
R119) and the chain notation for small programs (spec/30_encoding.md R67). The caller holds the carry and the results
between requests; the block does not (spec/10_state.md R30), so nothing here touches State. -/

namespace Sys2Proof.Machine

/-! ### Chains of bytes, from the least significant pair to the most significant -/

/-- R52, R119: the requests of a chain, `cin` of each after the first being the `C` of the one before. -/
def chainRequests (op : Op) (mode : Mode) : Bool → List (Byte × Byte) → List Request
  | _,   []           => []
  | cin, (x, y) :: ps =>
    let r : Request := ⟨op, mode, cin, x, y⟩
    r :: chainRequests op mode (eval r).C ps

/-- R52, R119: the responses of a chain. -/
def chain (op : Op) (mode : Mode) : Bool → List (Byte × Byte) → List Response
  | _,   []           => []
  | cin, (x, y) :: ps =>
    let r := eval ⟨op, mode, cin, x, y⟩
    r :: chain op mode r.C ps

/-- R119: an n-byte unsigned number from its bytes, the least significant first. -/
def bytesValue : List Byte → Nat
  | []      => 0
  | x :: xs => x.toNat + 256 * bytesValue xs

/-- R119: the same with 100 in place of 256, each byte read as two decimal digits. -/
def decimalValue : List Byte → Nat
  | []      => 0
  | x :: xs => dec x + 100 * decimalValue xs

/-- R106, R119: an n-byte number read as two's complement. -/
def signedBytesValue (xs : List Byte) : Int :=
  if 2 * bytesValue xs < 256 ^ xs.length then bytesValue xs else (bytesValue xs : Int) - 256 ^ xs.length

/-! ### The chain notation -/

/-- R67: a `cin`, literal or `C@k`. -/
inductive CarrySource where
  | literal (b : Bool)
  | carryOf (k : Nat)
  deriving DecidableEq, Repr

/-- R67: an `a` or `operand`, literal or `R@k`. -/
inductive ByteSource where
  | literal (x : Byte)
  | resultOf (k : Nat)
  deriving DecidableEq, Repr

/-- R67: one numbered request of a program. -/
structure Line where
  op      : Op
  mode    : Mode
  a       : ByteSource
  operand : ByteSource
  cin     : CarrySource
  deriving DecidableEq, Repr

/-- The response of request number k, counted from 1, among those taken so far; none for a request not yet made
(log entry 9). -/
def responseNumber (taken : List Response) : Nat → Option Response
  | 0     => none
  | k + 1 => taken[k]?

def resolveCarry (taken : List Response) : CarrySource → Option Bool
  | .literal b => some b
  | .carryOf k => (responseNumber taken k).map Response.C

def resolveByte (taken : List Response) : ByteSource → Option Byte
  | .literal x  => some x
  | .resultOf k => (responseNumber taken k).map Response.result

/-- R67: the request that a line is, with the outputs the caller holds in place of `C@k` and `R@k`. -/
def resolveLine (taken : List Response) (l : Line) : Option Request :=
  match resolveByte taken l.a, resolveByte taken l.operand, resolveCarry taken l.cin with
  | some a, some operand, some cin => some ⟨l.op, l.mode, cin, a, operand⟩
  | _, _, _                        => none

/-- R67: the requests a program comes to, in order, when the caller has taken `taken`; none when a line refers to a
request not yet made. -/
def programRequests (taken : List Response) : List Line → Option (List Request)
  | []      => some []
  | l :: ls =>
    match resolveLine taken l with
    | none   => none
    | some r => (programRequests (taken ++ [eval r]) ls).map (r :: ·)

/-- R67: the responses of a program. -/
def programResponses (ls : List Line) : Option (List Response) :=
  (programRequests [] ls).map (·.map eval)

end Sys2Proof.Machine
end

