-- ==== Sys2Proof/Safety.lean ====
section
/-! DEFINITION. What counts as a safe run, in the terms the statements use. -/

namespace Sys2Proof

/-- R130: a step that ends in its one outcome, the response: no fault and no refusal. -/
def Goes (o : Host.Outcome Machine.State Machine.Fault Machine.Refusal) : Prop := ∃ t, o = .next t

/-- R25, R26, R113: N is bit 7 of the result and Z says that the result is zero. -/
def FlagsAgree (r : Response) : Prop :=
  r.N = r.result.getLsbD 7 ∧ r.Z = decide (r.result.toNat = 0)

/-- Every response the caller has taken has N and Z that agree with its result. -/
def AllFlagsAgree (s : Machine.State) : Prop := ∀ r ∈ s.responses, FlagsAgree r

/-- R145: of the requests `presented`, those no longer waiting have been answered, each by the response that is its
own, in order, after the responses `before` that the caller had taken at the start. -/
def Answers (before : List Response) (presented : List Request) (s : Machine.State) : Prop :=
  ∃ done, presented = done ++ s.requests ∧ s.responses = before ++ done.map Machine.eval

end Sys2Proof
end

