-- ==== Sys2Proof/Certificates/Slice0/Obligations.lean ====
section
/-! DEFINITION. The statements for the provers. `c` is the carry-in, `v` the operand (KSIM's name for it), `s` a state.
Where a statement speaks of `respond`, `ExecDeliversTheResponse` ties it to `exec`, and `StepEvaluatesTheNextRequest`
ties `exec` to `step`. -/

open Sys2Proof Sys2Proof.Machine

/-- Words written out from the table decode to the operations they stand for. From R57, R61. -/
def Obligations.DecodeReadsWrittenOutWords : Prop :=
  decode 0b00_1_01011010_11000011#19 = .addBin 0x5A 0xC3 true ∧
  decode 0b01_0_01111001_00000001#19 = .addDec 0x79 0x01 false ∧
  decode 0b10_1_00000000_00000001#19 = .subBin 0x00 0x01 true ∧
  decode 0b11_0_00000000_11111111#19 = .subDec 0x00 0xFF false

/-- Bits 18 and 17 select the operation, the other 17 bits are its operands, for every word. Formalises R59. -/
def Obligations.DecodeSelectsByOpAndModeBits : Prop :=
  ∀ w : ReqWord,
    let a : Byte := w.extractLsb' 8 8
    let v : Byte := w.extractLsb' 0 8
    let c : Bool := w.getLsbD 16
    (w.extractLsb' 17 2 = 0b00#2 → decode w = .addBin a v c) ∧
    (w.extractLsb' 17 2 = 0b01#2 → decode w = .addDec a v c) ∧
    (w.extractLsb' 17 2 = 0b10#2 → decode w = .subBin a v c) ∧
    (w.extractLsb' 17 2 = 0b11#2 → decode w = .subDec a v c)

/-- The request word is op, mode, cin, a, operand, as bits, as a number and as hexadecimal digits. Formalises R57. -/
def Obligations.RequestWordLayout : Prop :=
  ∀ r : Request,
    let op : Nat := match r.op with | .add => 0 | .subtract => 1
    let mode : Nat := match r.mode with | .binary => 0 | .decimal => 1
    let w := wordOfRequest r
    w.getLsbD 18 = decide (op = 1) ∧ w.getLsbD 17 = decide (mode = 1) ∧ w.getLsbD 16 = r.cin ∧
    w.extractLsb' 8 8 = r.a ∧ w.extractLsb' 0 8 = r.operand ∧ w.getLsbD 15 = r.a.getLsbD 7 ∧
    w.getLsbD 7 = r.operand.getLsbD 7 ∧
    w.toNat = op * 2 ^ 18 + mode * 2 ^ 17 + r.cin.toNat * 2 ^ 16 + r.a.toNat * 256 + r.operand.toNat ∧
    w.toNat / 16 ^ 4 = op * 4 + mode * 2 + r.cin.toNat ∧ w.toNat / 16 ^ 4 ≤ 7 ∧
    w.toNat / 16 ^ 2 % 256 = r.a.toNat ∧ w.toNat % 256 = r.operand.toNat

/-- Decoding an encoded operation gives it back, for every operation and every operand. From R57, R59, R62. -/
def Obligations.DecodeOfEncodeIsTheInstruction : Prop :=
  ∀ i : Instr, i.wellFormed = true ∧ decode (encode i) = i ∧
    decodeTableWord 24 (encode i).toNat = some i

/-- Encoding what a word decodes to gives the word back, so no two words mean the same. From R56, R59, R61. -/
def Obligations.EncodeOfDecodeIsTheWord : Prop :=
  (∀ w : ReqWord, encode (decode w) = w) ∧ (∀ r : Request, requestOfWord (wordOfRequest r) = r)

/-- A number is read as a request word exactly when it is below 2^19, and never reduced. From R62, R63.
Its form rests on the model's own choice or inference, log entry 5. -/
def Obligations.NumbersOutsideTheRequestWordAreRejected : Prop :=
  ∀ nbits w : Nat,
    (w < 2 ^ 19 → decodeTableWord nbits w = some (decode (BitVec.ofNat 19 w))) ∧
    (2 ^ 19 ≤ w → decodeTableWord nbits w = none ∧ decodeNumber w = .error .contractViolation)

/-- A call outside the ports' domains is refused before any evaluation; one inside is the request it says. Formalises R63. -/
def Obligations.BoundaryRefusesContractViolations : Prop :=
  ∀ (call : Call) (s : State),
    (call.op < 2 ∧ call.mode < 2 ∧ call.cin < 2 ∧ call.a < 256 ∧ call.operand < 256 →
      Goes (present call s) ∧
      ∃ r : Request, requestOfCall call = .ok r ∧
        (r.op = if call.op = 0 then .add else .subtract) ∧
        (r.mode = if call.mode = 0 then .binary else .decimal) ∧
        r.cin = decide (call.cin = 1) ∧ r.a.toNat = call.a ∧ r.operand.toNat = call.operand) ∧
    (¬ (call.op < 2 ∧ call.mode < 2 ∧ call.cin < 2 ∧ call.a < 256 ∧ call.operand < 256) →
      present call s = .refused .contractViolation)

/-- A call that is accepted is answered by the step that takes it, after the requests presented before. From R63, R145, R152.
Its form rests on the model's own choice or inference, log entries 1 and 6. -/
def Obligations.PresentedCallIsAnsweredInTurn : Prop :=
  ∀ (call : Call) (r : Request) (s : State), requestOfCall call = .ok r →
    present call s = .next { s with requests := s.requests ++ [r] } ∧
    (s.requests = [] → ∃ t, present call s = .next t ∧ step t = .next { s with responses := s.responses ++ [eval r] })

/-- The response word is N, V, Z, C, result, as bits and as a number. Formalises R58. -/
def Obligations.ResponseWordLayout : Prop :=
  ∀ r : Response,
    let w := wordOfResponse r
    w.getLsbD 11 = r.N ∧ w.getLsbD 10 = r.V ∧ w.getLsbD 9 = r.Z ∧ w.getLsbD 8 = r.C ∧
    w.extractLsb' 0 8 = r.result ∧ flagBits r = w.extractLsb' 8 4 ∧
    (flagBits r).toNat = 8 * r.N.toNat + 4 * r.V.toNat + 2 * r.Z.toNat + r.C.toNat ∧
    w.toNat = r.N.toNat * 2048 + r.V.toNat * 1024 + r.Z.toNat * 512 + r.C.toNat * 256 + r.result.toNat ∧
    w.toNat / 16 ^ 2 = (flagBits r).toNat

/-- Packing and unpacking a response lose nothing. From R56, R58. -/
def Obligations.ResponseWordRoundTrip : Prop :=
  (∀ r : Response, responseOfWord (wordOfResponse r) = r) ∧ (∀ w : RspWord, wordOfResponse (responseOfWord w) = w)

/-- Each spelling of an operation denotes exactly one operation with explicit operands. From R65.
Its form rests on the model's own choice or inference, log entry 8. -/
def Obligations.TextDenotesOneOperation : Prop :=
  (∀ i j : Instr, mnemonicText i = mnemonicText j → i = j) ∧ (∀ i j : Instr, callText i = callText j → i = j)

/-- Executing an operation delivers its response and changes nothing else. From R2, R22, R43.
Its form rests on the model's own choice or inference, log entry 1. -/
def Obligations.ExecDeliversTheResponse : Prop :=
  ∀ (i : Instr) (s : State), exec i s = .next { s with responses := s.responses ++ [respond i] }

/-- A step runs the decoded request that the caller presents next. From R14, R145.
Its form rests on the model's own choice or inference, log entry 1. -/
def Obligations.StepEvaluatesTheNextRequest : Prop :=
  (∀ (w : ReqWord) (rs : List Request) (ps : List Response),
    step ⟨requestOfWord w :: rs, ps⟩ = exec (decode w) ⟨rs, ps⟩) ∧
  (∀ (r : Request) (rs : List Request) (ps : List Response),
    step ⟨r :: rs, ps⟩ = .next ⟨rs, ps ++ [eval r]⟩)

/-- The very next step after withFetchWord runs exactly the instruction of that word. From R145, R152.
Its form rests on the model's own choice or inference, log entry 4. -/
def Obligations.FetchWordRunsNext : Prop :=
  ∀ (nbits w : Nat) (s : State) (i : Instr), decodeTableWord nbits w = some i →
    step (s.withFetchWord nbits w) = exec i s

/-- Where the caller presents nothing, a step changes nothing. From 60_exceptions.md section 12.
Its form rests on the model's own choice or inference, log entry 3. -/
def Obligations.StepWithoutRequestChangesNothing : Prop :=
  ∀ ps : List Response, step ⟨[], ps⟩ = .next ⟨[], ps⟩

/-- Every evaluation ends in its one outcome, a response, and no fault exists. From R22, R130.
Its form rests on the model's own choice or inference, log entry 1. -/
def Obligations.NoEvaluationFaultsOrRefuses : Prop :=
  (∀ s : State, s.requests ≠ [] → ∃ r : Response, step s = .next ⟨s.requests.tail, s.responses ++ [r]⟩) ∧
  (∀ (i : Instr) (s : State), ∃ r : Response, exec i s = .next { s with responses := s.responses ++ [r] }) ∧
  (Fault → False)

/-- A run answers every request, in order, each by its own response and nothing else. From R2, R46, R145.
Its form rests on the model's own choice or inference, log entries 1 and 3. -/
def Obligations.RunAnswersEveryRequest : Prop :=
  ∀ s : State,
    Host.Core.run core s.requests.length s = .next ⟨[], s.responses ++ s.requests.map eval⟩ ∧
    ∀ k : Nat, Host.Core.run core (s.requests.length + k) s = .next ⟨[], s.responses ++ s.requests.map eval⟩

/-- Every order of the requests gives each request the response it would get alone. From R46.
Its form rests on the model's own choice or inference, log entry 1. -/
def Obligations.OrderOfRequestsDoesNotMatter : Prop :=
  ∀ rs rs' : List Request, rs.Perm rs' →
    ∃ ps ps' : List Response,
      Host.Core.run core rs.length ⟨rs, []⟩ = .next ⟨[], ps⟩ ∧
      Host.Core.run core rs.length ⟨rs', []⟩ = .next ⟨[], ps'⟩ ∧
      ps.length = rs.length ∧ (rs.zip ps).Perm (rs'.zip ps') ∧
      ∀ q ∈ rs.zip ps, Host.Core.run core 1 ⟨[q.1], []⟩ = .next ⟨[], [q.2]⟩

/-- Before the first request there is no response. From R35, R151.
Its form rests on the model's own choice or inference, log entries 2 and 3. -/
def Obligations.ResetHoldsNoResponse : Prop :=
  State.reset.requests = [] ∧ State.reset.responses = [] ∧
    (∀ n : Nat, Host.Core.run core n State.reset = .next State.reset)

/-- The flag invariant holds at reset. From R113, R151.
Its form rests on the model's own choice or inference, log entries 1 and 2. -/
def Obligations.ResetFlagsAgree : Prop :=
  AllFlagsAgree State.reset

/-- Every step keeps that N and Z of every response agree with its result. From R25, R26, R113.
Its form rests on the model's own choice or inference, log entry 1. -/
def Obligations.StepKeepsFlagsAgree : Prop :=
  ∀ s s' : State, AllFlagsAgree s → step s = .next s' → AllFlagsAgree s'

/-- Presenting one more call keeps the invariant of a run, with its request added at the end. From R63, R145, R152.
Its form rests on the model's own choice or inference, log entries 1 and 6. -/
def Obligations.PresentKeepsAnswers : Prop :=
  ∀ (before : List Response) (presented : List Request) (s : State) (call : Call),
    Answers before presented s →
      (∀ r : Request, requestOfCall call = .ok r →
        ∃ t : State, present call s = .next t ∧ Answers before (presented ++ [r]) t ∧ t.responses = s.responses) ∧
      (∀ e : DecodeReject, requestOfCall call = .error e → present call s = .refused .contractViolation)

/-- Every step keeps that exactly the requests taken have been answered, each by its own response. From R20, R43, R145.
Its form rests on the model's own choice or inference, log entry 1. -/
def Obligations.StepKeepsAnswers : Prop :=
  (∀ (before : List Response) (rs : List Request), Answers before rs ⟨rs, before⟩) ∧
  (∀ (before : List Response) (presented : List Request) (s s' : State),
    Answers before presented s → step s = .next s' →
      Answers before presented s' ∧ (s.requests ≠ [] → s'.responses.length = s.responses.length + 1))

/-- ADD.BIN gives the sum modulo 256 and the four flags of the sum. Formalises R76. -/
def Obligations.AddBinGivesSumAndFlags : Prop :=
  ∀ (a v : Byte) (c : Bool),
    let r := respond (.addBin a v c)
    (encode (.addBin a v c)).extractLsb' 17 2 = 0b00#2 ∧
    r.C = decide (a.toNat + v.toNat + c.toNat > 255) ∧
    r.result.toNat = (a.toNat + v.toNat + c.toNat) % 256 ∧
    r.Z = decide (r.result.toNat = 0) ∧
    r.N = r.result.getLsbD 7 ∧
    r.V = decide (a.getLsbD 7 = v.getLsbD 7 ∧ r.result.getLsbD 7 ≠ a.getLsbD 7) ∧
    (r.Z = true ∧ r.V = true ↔ a = 0x80 ∧ v = 0x80 ∧ c = false)

/-- The overflow of ADD.BIN in its two exclusive-or forms. Formalises R77. -/
def Obligations.AddBinOverflowByExclusiveOr : Prop :=
  ∀ (a v : Byte) (c : Bool),
    let r := respond (.addBin a v c)
    r.V = ((a ^^^ r.result) &&& (v ^^^ r.result)).getLsbD 7 ∧
    r.V = (((a ^^^ v) ^^^ 0xFF#8) &&& (a ^^^ r.result)).getLsbD 7

/-- ADD.BIN loses nothing: result and carry are the 9-bit sum. Formalises R108. -/
def Obligations.AddBinIsTheFullSum : Prop :=
  ∀ (a v : Byte) (c : Bool),
    let r := respond (.addBin a v c)
    r.result.toNat + 256 * r.C.toNat = a.toNat + v.toNat + c.toNat ∧
    (r.C = true ↔ ¬ a.toNat + v.toNat + c.toNat < 2 ^ 8)

/-- V of ADD.BIN is true signed overflow. Formalises R110. -/
def Obligations.AddBinOverflowIsSignedOverflow : Prop :=
  ∀ (a v : Byte) (c : Bool),
    (respond (.addBin a v c)).V = true ↔
      ¬ (-128 ≤ a.toInt + v.toInt + (c.toNat : Int) ∧ a.toInt + v.toInt + (c.toNat : Int) ≤ 127)

/-- ADD.DEC gives the corrected byte and the flags taken step by step. Formalises R80. -/
def Obligations.AddDecGivesDecimalSumAndFlags : Prop :=
  ∀ (a v : Byte) (c : Bool),
    let lo := a.toNat % 16 + v.toNat % 16 + c.toNat
    let hi := a.toNat / 16 * 16 + v.toNat / 16 * 16
    let lo' := if lo > 9 then lo + 6 else lo
    let hi' := if lo > 9 then hi + 0x10 else hi
    let hi'' := if hi' > 0x90 then hi' + 0x60 else hi'
    let r := respond (.addDec a v c)
    (encode (.addDec a v c)).extractLsb' 17 2 = 0b01#2 ∧
    r.V = decide (a.getLsbD 7 = v.getLsbD 7 ∧ hi'.testBit 7 ≠ a.getLsbD 7) ∧
    r.C = decide (hi'' > 0xFF) ∧
    r.result.toNat = hi'' / 16 % 16 * 16 + lo' % 16 ∧
    r.Z = decide (r.result.toNat = 0) ∧
    r.N = r.result.getLsbD 7

/-- The sign of hi in ADD.DEC is bit 7, also when hi is 0x100 or more. Formalises R82. -/
def Obligations.AddDecSignOfHiIsBitSeven : Prop :=
  ∀ (a v : Byte) (c : Bool),
    let hi := addDecHighAtV a v c
    let signHi := decide (0x80 ≤ hi ∧ hi ≤ 0xF0 ∨ 0x180 ≤ hi ∧ hi ≤ 0x1F0)
    hi % 16 = 0 ∧ hi ≤ 0x1F0 ∧
    hi = 16 * (a.toNat / 16 + v.toNat / 16) + (if a.toNat % 16 + v.toNat % 16 + c.toNat > 9 then 16 else 0) ∧
    (respond (.addDec a v c)).V = decide (a.getLsbD 7 = v.getLsbD 7 ∧ signHi ≠ a.getLsbD 7) ∧
    (respond (.addDec 0x80 0x80 false)).V = true ∧ (respond (.addDec 0xF0 0xF0 false)).V = false

/-- C of ADD.DEC is set exactly when hi at the overflow test is 0xA0 or more. Formalises R83. -/
def Obligations.AddDecCarryThreshold : Prop :=
  ∀ (a v : Byte) (c : Bool),
    let hi := 16 * (a.toNat / 16 + v.toNat / 16) + (if a.toNat % 16 + v.toNat % 16 + c.toNat > 9 then 16 else 0)
    let hi' := if hi > 0x90 then hi + 0x60 else hi
    ((respond (.addDec a v c)).C = true ↔ 0x100 ≤ hi') ∧
    ((respond (.addDec a v c)).C = true → hi' = hi + 0x60) ∧
    (¬ hi > 0x90 → (respond (.addDec a v c)).C = false) ∧
    ((respond (.addDec a v c)).C = true ↔ 0xA0 ≤ hi)

/-- The intermediates of ADD.DEC stay in their ranges, and 10 bits for hi and 6 for lo suffice. From R87, R107. -/
def Obligations.AddDecIntermediateRanges : Prop :=
  ∀ (a v : Byte) (c : Bool),
    addDecLow a v c ≤ 31 ∧ addDecLowCorrected a v c ≤ 37 ∧ addDecHigh a v ≤ 0x1E0 ∧
    addDecHighAtV a v c ≤ 0x1F0 ∧ addDecHighCorrected a v c ≤ 0x250 ∧
    (let lo : BitVec 6 := (a.setWidth 4).setWidth 6 + (v.setWidth 4).setWidth 6 + BitVec.ofNat 6 c.toNat
     let hi : BitVec 10 := (a &&& 0xF0#8).setWidth 10 + (v &&& 0xF0#8).setWidth 10
     let lo' : BitVec 6 := if lo > 9#6 then lo + 6#6 else lo
     let hi' : BitVec 10 := if lo > 9#6 then hi + 0x10#10 else hi
     let hi'' : BitVec 10 := if hi' > 0x90#10 then hi' + 0x60#10 else hi'
     let r := respond (.addDec a v c)
     r.result = ((lo' &&& 0xF#6).setWidth 8 ||| (hi'' &&& 0xF0#10).setWidth 8) ∧
     r.C = decide (hi'' > 0xFF#10) ∧
     r.V = (a.getLsbD 7 == v.getLsbD 7 && hi'.getLsbD 7 != a.getLsbD 7))

/-- On valid packed BCD, ADD.DEC is decimal addition. Formalises R86. -/
def Obligations.AddDecAddsPackedDecimals : Prop :=
  ∀ (a v : Byte) (c : Bool), validBcd a = true → validBcd v = true →
    let r := respond (.addDec a v c)
    let n := 10 * (a.toNat / 16) + a.toNat % 16 + (10 * (v.toNat / 16) + v.toNat % 16) + c.toNat
    r.result.toNat = 16 * (n % 100 / 10) + n % 100 % 10 ∧ r.C = decide (n ≥ 100) ∧ validBcd r.result = true

/-- ADD.DEC on the examples of the order of its steps and of invalid packed BCD. From R81, R84, R85, 95_test_vectors.md section 2.2. -/
def Obligations.AddDecWorkedExamples : Prop :=
  respond (.addDec 0x79 0x01 false) = ⟨0x80, true, true, false, false⟩ ∧
  respond (.addDec 0x50 0x50 false) = ⟨0x00, false, true, true, true⟩ ∧
  respond (.addDec 0x0F 0x0F true) = ⟨0x15, false, false, false, false⟩ ∧
  respond (.addDec 0xA0 0x00 false) = ⟨0x00, false, false, true, true⟩ ∧
  respond (.addDec 0xFF 0xFF true) = ⟨0x55, false, false, false, true⟩ ∧
  respond (.addDec 0x99 0x01 false) = ⟨0x00, false, false, true, true⟩ ∧
  respond (.addDec 0x80 0x80 false) = ⟨0x60, false, true, false, true⟩

/-- SUB.BIN gives the difference modulo 256 and the four flags. Formalises R91. -/
def Obligations.SubBinGivesDifferenceAndFlags : Prop :=
  ∀ (a v : Byte) (c : Bool),
    let wide0 : Int := a.toNat - v.toNat + c.toNat - 1
    let r := respond (.subBin a v c)
    (encode (.subBin a v c)).extractLsb' 17 2 = 0b10#2 ∧
    -256 ≤ wide0 ∧ wide0 ≤ 255 ∧
    r.V = decide ((BitVec.ofInt 8 wide0).getLsbD 7 ≠ a.getLsbD 7 ∧ v.getLsbD 7 ≠ a.getLsbD 7) ∧
    r.C = decide (0 ≤ wide0) ∧
    (r.result.toNat : Int) = wide0 % 256 ∧
    r.Z = decide (r.result.toNat = 0) ∧
    r.N = r.result.getLsbD 7 ∧
    (r.Z = true ∧ r.C = false ↔ a = 0x00 ∧ v = 0xFF ∧ c = false) ∧
    (r.Z = true ∧ r.V = true ↔ a = 0x80 ∧ v = 0x7F ∧ c = false) ∧
    (a = v ∧ c = true → r.result = 0 ∧ r.Z = true ∧ r.C = true ∧ r.V = false)

/-- The overflow of both Subtract operations in its exclusive-or form. Formalises R92. -/
def Obligations.SubtractOverflowByExclusiveOr : Prop :=
  ∀ (a v : Byte) (c : Bool),
    let w : Byte := BitVec.ofInt 8 ((a.toNat : Int) - v.toNat + c.toNat - 1)
    (respond (.subBin a v c)).V = ((a ^^^ w) &&& (a ^^^ v)).getLsbD 7 ∧
    (respond (.subDec a v c)).V = ((a ^^^ w) &&& (a ^^^ v)).getLsbD 7

/-- The carry of both Subtract operations compares integers and never wraps. Formalises R93. -/
def Obligations.SubtractCarryComparesIntegers : Prop :=
  ∀ (a v : Byte) (c : Bool),
    (respond (.subBin a v c)).C = decide ((v.toNat : Int) ≤ (a.toNat : Int) + c.toNat - 1) ∧
    (respond (.subDec a v c)).C = decide ((v.toNat : Int) ≤ (a.toNat : Int) + c.toNat - 1) ∧
    (respond (.subBin a v c)).C = decide (v.toNat + (1 - c.toNat) ≤ a.toNat) ∧
    (∀ W : Nat, 9 ≤ W → (respond (.subBin a v c)).C =
      decide ((BitVec.ofInt W ((a.toNat : Int) - v.toNat + c.toNat - 1)).toNat ≤ 255)) ∧
    (respond (.subBin 0 v false)).C = false

/-- SUB.BIN loses nothing: result and borrow are the true difference. Formalises R109. -/
def Obligations.SubBinIsTheTrueDifference : Prop :=
  ∀ (a v : Byte) (c : Bool),
    let r := respond (.subBin a v c)
    (r.result.toNat : Int) - 256 * (1 - (r.C.toNat : Int)) = (a.toNat : Int) - v.toNat - (1 - (c.toNat : Int)) ∧
    (r.C = false ↔ (a.toNat : Int) - v.toNat - (1 - (c.toNat : Int)) < 0) ∧
    (c = true → r.C = decide (v.toNat ≤ a.toNat) ∧ r.Z = decide (a = v))

/-- V of SUB.BIN is true signed overflow. Formalises R111. -/
def Obligations.SubBinOverflowIsSignedOverflow : Prop :=
  ∀ (a v : Byte) (c : Bool),
    (respond (.subBin a v c)).V = true ↔
      ¬ (-128 ≤ a.toInt - v.toInt - (1 - (c.toNat : Int)) ∧ a.toInt - v.toInt - (1 - (c.toNat : Int)) ≤ 127)

/-- Subtraction is addition of the complement, in every output. Formalises R112. -/
def Obligations.SubBinIsAddBinOfComplement : Prop :=
  (∀ (a v : Byte) (c : Bool), respond (.subBin a v c) = respond (.addBin a (v ^^^ 0xFF#8) c)) ∧
  (∃ (a v : Byte) (c : Bool), respond (.subDec a v c) ≠ respond (.addDec a (v ^^^ 0xFF#8) c))

/-- SUB.DEC gives the twice corrected difference, and with V and C of the uncorrected one. Formalises R95. -/
def Obligations.SubDecGivesCorrectedDifference : Prop :=
  ∀ (a v : Byte) (c : Bool),
    let wide0 : Int := a.toNat - v.toNat + c.toNat - 1
    let lo : Int := (a.toNat % 16 : Nat) - (v.toNat % 16 : Nat) + c.toNat - 1
    let r := respond (.subDec a v c)
    ∃ wide : Int,
      (encode (.subDec a v c)).extractLsb' 17 2 = 0b11#2 ∧
      (wide0 < 0 → lo < 0 → wide = wide0 - 0x66) ∧ (wide0 < 0 → ¬ lo < 0 → wide = wide0 - 0x60) ∧
      (¬ wide0 < 0 → lo < 0 → wide = wide0 - 6) ∧ (¬ wide0 < 0 → ¬ lo < 0 → wide = wide0) ∧
      -256 ≤ wide0 ∧ wide0 ≤ 255 ∧ -16 ≤ lo ∧ lo ≤ 15 ∧ -358 ≤ wide ∧ wide ≤ 255 ∧
      r.V = decide ((BitVec.ofInt 8 wide0).getLsbD 7 ≠ a.getLsbD 7 ∧ v.getLsbD 7 ≠ a.getLsbD 7) ∧
      r.C = decide (0 ≤ wide0) ∧
      (r.result.toNat : Int) = wide % 256 ∧
      r.Z = decide (r.result.toNat = 0) ∧
      r.N = r.result.getLsbD 7

/-- On valid packed BCD, SUB.DEC is decimal subtraction. Formalises R99. -/
def Obligations.SubDecSubtractsPackedDecimals : Prop :=
  ∀ (a v : Byte) (c : Bool), validBcd a = true → validBcd v = true →
    let r := respond (.subDec a v c)
    let n : Int := (10 * (a.toNat / 16) + a.toNat % 16 : Nat) - (10 * (v.toNat / 16) + v.toNat % 16 : Nat)
      - (1 - (c.toNat : Int))
    (r.result.toNat : Int) = 16 * (n % 100 / 10) + n % 100 % 10 ∧ r.C = decide (n ≥ 0) ∧ validBcd r.result = true

/-- SUB.DEC on the examples of its two triggers and of invalid packed BCD. From R96, R97, R98, R99, 95_test_vectors.md section 2.4. -/
def Obligations.SubDecWorkedExamples : Prop :=
  respond (.subDec 0x10 0x0B true) = ⟨0xFF, true, false, false, true⟩ ∧
  respond (.subDec 0x80 0x01 true) = ⟨0x79, false, true, false, true⟩ ∧
  respond (.subDec 0x0A 0x00 true) = ⟨0x0A, false, false, false, true⟩ ∧
  respond (.subDec 0x00 0x0F true) = ⟨0x8B, true, false, false, false⟩ ∧
  respond (.subDec 0x00 0xFF false) = ⟨0x9A, true, false, false, false⟩ ∧
  respond (.subDec 0x1F 0x0F true) = ⟨0x10, false, false, false, true⟩ ∧
  respond (.subDec 0x46 0x12 true) = ⟨0x34, false, false, false, true⟩ ∧
  respond (.subDec 0x40 0x13 true) = ⟨0x27, false, false, false, true⟩ ∧
  respond (.subDec 0x12 0x21 true) = ⟨0x91, true, false, false, false⟩ ∧
  respond (.subDec 0x32 0x02 false) = ⟨0x29, false, false, false, true⟩

/-- Both Subtract operations in unsigned registers of any width of 9 bits or more. From R100, R107. -/
def Obligations.SubtractInUnsignedRegisters : Prop :=
  ∀ (W : Nat), 9 ≤ W → ∀ (a v : Byte) (c : Bool),
    let wide0 : BitVec W := BitVec.ofNat W a.toNat - BitVec.ofNat W v.toNat + BitVec.ofNat W c.toNat - 1#W
    let lo : BitVec W :=
      BitVec.ofNat W (a.toNat % 16) - BitVec.ofNat W (v.toNat % 16) + BitVec.ofNat W c.toNat - 1#W
    let wide1 : BitVec W := if wide0.toNat > 255 then wide0 - BitVec.ofNat W 0x60 else wide0
    let wide2 : BitVec W := if lo.toNat > 255 then wide1 - BitVec.ofNat W 6 else wide1
    respond (.subBin a v c) =
      { result := wide0.setWidth 8, N := wide0.getLsbD 7,
        V := wide0.getLsbD 7 != a.getLsbD 7 && v.getLsbD 7 != a.getLsbD 7,
        Z := decide (wide0.toNat % 256 = 0), C := decide (wide0.toNat ≤ 255) } ∧
    respond (.subDec a v c) =
      { result := wide2.setWidth 8, N := wide2.getLsbD 7,
        V := wide0.getLsbD 7 != a.getLsbD 7 && v.getLsbD 7 != a.getLsbD 7,
        Z := decide (wide2.toNat % 256 = 0), C := decide (wide0.toNat ≤ 255) }

/-- Z and N follow the result in every operation, and are never both set. Formalises R113. -/
def Obligations.FlagsFollowTheResult : Prop :=
  ∀ i : Instr,
    (respond i).Z = decide ((respond i).result.toNat = 0) ∧
    (respond i).N = (respond i).result.getLsbD 7 ∧
    ¬ ((respond i).N = true ∧ (respond i).Z = true)

/-- Add is commutative in its two byte operands, in both modes and in every output. Formalises R115. -/
def Obligations.AddIsCommutative : Prop :=
  (∀ (a v : Byte) (c : Bool), respond (.addBin a v c) = respond (.addBin v a c) ∧
    respond (.addDec a v c) = respond (.addDec v a c)) ∧
  (∃ (a v : Byte) (c : Bool), respond (.subBin a v c) ≠ respond (.subBin v a c)) ∧
  (∃ (a v : Byte) (c : Bool), respond (.subDec a v c) ≠ respond (.subDec v a c))

/-- Binary Add and Subtract are inverse when their carry-ins are complementary. Formalises R116. -/
def Obligations.BinaryAddAndSubtractAreInverse : Prop :=
  ∀ a v : Byte,
    (respond (.subBin (respond (.addBin a v false)).result v true)).result = a ∧
    (respond (.subBin (respond (.addBin a v true)).result v false)).result = a ∧
    (respond (.subBin (respond (.addBin a v true)).result v true)).result = a + 1 ∧
    (respond (.subBin (respond (.addBin a v true)).result v true)).result ≠ a

/-- V and C of Subtract do not depend on the mode; those of Add do. Formalises R117. -/
def Obligations.SubtractCarryAndOverflowIgnoreTheMode : Prop :=
  (∀ (a v : Byte) (c : Bool), (respond (.subDec a v c)).V = (respond (.subBin a v c)).V ∧
    (respond (.subDec a v c)).C = (respond (.subBin a v c)).C) ∧
  (∃ (a v : Byte) (c : Bool), (respond (.addDec a v c)).V ≠ (respond (.addBin a v c)).V) ∧
  (∃ (a v : Byte) (c : Bool), (respond (.addDec a v c)).C ≠ (respond (.addBin a v c)).C)

/-- On valid packed BCD, Decimal Add and Subtract are inverse when their carry-ins are complementary. From R118. -/
def Obligations.DecimalAddAndSubtractAreInverse : Prop :=
  (∀ a v : Byte, validBcd a = true → validBcd v = true →
    (respond (.subDec (respond (.addDec a v false)).result v true)).result = a ∧
    (respond (.subDec (respond (.addDec a v true)).result v false)).result = a) ∧
  (∃ a v : Byte, (respond (.subDec (respond (.addDec a v false)).result v true)).result ≠ a)

/-- SUB.BIN with carry-in 1 compares its operands, unsigned and signed. Formalises R120. -/
def Obligations.SubtractionComparesItsOperands : Prop :=
  (∀ a v : Byte,
    (respond (.subBin a v true)).Z = decide (a = v) ∧
    (respond (.subBin a v true)).C = decide (v.toNat ≤ a.toNat) ∧
    ((respond (.subBin a v true)).N ^^ (respond (.subBin a v true)).V) = decide (a.toInt < v.toInt) ∧
    (respond (.subDec a v true)).C = decide (v.toNat ≤ a.toNat) ∧
    (validBcd a = true → validBcd v = true → (respond (.subDec a v true)).Z = decide (a = v))) ∧
  (∃ a v : Byte, (respond (.subDec a v true)).Z ≠ decide (a = v))

/-- A chain of ADD.BIN adds n-byte numbers, for every n. From R52, R119. -/
def Obligations.AddBinChainAddsNumbers : Prop :=
  ∀ ps : List (Byte × Byte),
    let X := bytesValue (ps.map Prod.fst)
    let Y := bytesValue (ps.map Prod.snd)
    let rs := chain .add .binary false ps
    rs.length = ps.length ∧
    bytesValue (rs.map Response.result) = (X + Y) % 256 ^ ps.length ∧
    ∀ r, rs.getLast? = some r → r.C = decide (X + Y ≥ 256 ^ ps.length)

/-- A chain of SUB.BIN subtracts n-byte numbers, for every n. From R52, R119. -/
def Obligations.SubBinChainSubtractsNumbers : Prop :=
  ∀ ps : List (Byte × Byte),
    let X := bytesValue (ps.map Prod.fst)
    let Y := bytesValue (ps.map Prod.snd)
    let rs := chain .subtract .binary true ps
    rs.length = ps.length ∧
    (bytesValue (rs.map Response.result) : Int) = ((X : Int) - Y) % 256 ^ ps.length ∧
    ∀ r, rs.getLast? = some r → r.C = decide (X ≥ Y)

/-- A chain of ADD.DEC adds 2n-digit decimal numbers, for every n. From R52, R119. -/
def Obligations.AddDecChainAddsDecimals : Prop :=
  ∀ ps : List (Byte × Byte), (∀ p ∈ ps, validBcd p.1 = true ∧ validBcd p.2 = true) →
    let X := decimalValue (ps.map Prod.fst)
    let Y := decimalValue (ps.map Prod.snd)
    let rs := chain .add .decimal false ps
    rs.length = ps.length ∧ (∀ r ∈ rs, validBcd r.result = true) ∧
    decimalValue (rs.map Response.result) = (X + Y) % 100 ^ ps.length ∧
    ∀ r, rs.getLast? = some r → r.C = decide (X + Y ≥ 100 ^ ps.length)

/-- A chain of SUB.DEC subtracts 2n-digit decimal numbers, for every n. From R52, R119. -/
def Obligations.SubDecChainSubtractsDecimals : Prop :=
  ∀ ps : List (Byte × Byte), (∀ p ∈ ps, validBcd p.1 = true ∧ validBcd p.2 = true) →
    let X := decimalValue (ps.map Prod.fst)
    let Y := decimalValue (ps.map Prod.snd)
    let rs := chain .subtract .decimal true ps
    rs.length = ps.length ∧ (∀ r ∈ rs, validBcd r.result = true) ∧
    (decimalValue (rs.map Response.result) : Int) = ((X : Int) - Y) % 100 ^ ps.length ∧
    ∀ r, rs.getLast? = some r → r.C = decide (X ≥ Y)

/-- V and N of the last evaluation of a binary chain are those of the whole n-byte operation. From R119. -/
def Obligations.LastFlagsOfABinaryChain : Prop :=
  (∀ (ps : List (Byte × Byte)) (r : Response), (chain .add .binary false ps).getLast? = some r →
    let sum := signedBytesValue (ps.map Prod.fst) + signedBytesValue (ps.map Prod.snd)
    (r.V = true ↔ ¬ (-(256 ^ ps.length : Int) ≤ 2 * sum ∧ 2 * sum < 256 ^ ps.length)) ∧
    (r.N = true ↔ signedBytesValue ((chain .add .binary false ps).map Response.result) < 0)) ∧
  (∀ (ps : List (Byte × Byte)) (r : Response), (chain .subtract .binary true ps).getLast? = some r →
    let difference := signedBytesValue (ps.map Prod.fst) - signedBytesValue (ps.map Prod.snd)
    (r.V = true ↔ ¬ (-(256 ^ ps.length : Int) ≤ 2 * difference ∧ 2 * difference < 256 ^ ps.length)) ∧
    (r.N = true ↔ signedBytesValue ((chain .subtract .binary true ps).map Response.result) < 0))

/-- The result of a chain is zero exactly when every Z is set. From R119. -/
def Obligations.ChainIsZeroWhenEveryByteIs : Prop :=
  ∀ (op : Op) (m : Mode) (c : Bool) (ps : List (Byte × Byte)),
    (bytesValue ((chain op m c ps).map Response.result) = 0 ↔ ∀ r ∈ chain op m c ps, r.Z = true)

/-- Presenting the requests of a chain to the machine gives the responses of the chain. From R30, R52, R119.
Its form rests on the model's own choice or inference, log entry 1. -/
def Obligations.ChainRunsOnTheMachine : Prop :=
  ∀ (op : Op) (m : Mode) (c : Bool) (ps : List (Byte × Byte)) (before : List Response),
    Host.Core.run core ps.length ⟨chainRequests op m c ps, before⟩ = .next ⟨[], before ++ chain op m c ps⟩ ∧
    ∀ (k : Nat) (r q : Request), (chainRequests op m c ps)[k]? = some r →
      (chainRequests op m c ps)[k + 1]? = some q → q.cin = (eval r).C

/-- In the chain notation C@k and R@k are the outputs of request k, and the program runs on the machine. From R67.
Its form rests on the model's own choice or inference, log entries 9 and 1. -/
def Obligations.ChainNotationNamesEarlierOutputs : Prop :=
  (∀ ls : List Line,
    (∀ (n : Nat) (l : Line), ls[n]? = some l →
      (∀ k, l.cin = .carryOf k → 1 ≤ k ∧ k ≤ n) ∧ (∀ k, l.a = .resultOf k → 1 ≤ k ∧ k ≤ n) ∧
      (∀ k, l.operand = .resultOf k → 1 ≤ k ∧ k ≤ n)) →
    ∃ rs : List Request, programRequests [] ls = some rs) ∧
  (∀ (ls : List Line) (rs : List Request), programRequests [] ls = some rs →
    rs.length = ls.length ∧ programResponses ls = some (rs.map eval) ∧
    Host.Core.run core ls.length ⟨rs, []⟩ = .next ⟨[], rs.map eval⟩ ∧
    ∀ (n : Nat) (l : Line) (r : Request), ls[n]? = some l → rs[n]? = some r →
      r.op = l.op ∧ r.mode = l.mode ∧
      (∀ b, l.cin = .literal b → r.cin = b) ∧
      (∀ k, l.cin = .carryOf k → 1 ≤ k ∧ k ≤ n ∧ ∃ q, rs[k - 1]? = some q ∧ r.cin = (eval q).C) ∧
      (∀ x, l.a = .literal x → r.a = x) ∧
      (∀ k, l.a = .resultOf k → 1 ≤ k ∧ k ≤ n ∧ ∃ q, rs[k - 1]? = some q ∧ r.a = (eval q).result) ∧
      (∀ x, l.operand = .literal x → r.operand = x) ∧
      (∀ k, l.operand = .resultOf k → 1 ≤ k ∧ k ≤ n ∧ ∃ q, rs[k - 1]? = some q ∧ r.operand = (eval q).result))
end

