-- ==== Sys2Proof/Laws/Chain.lean ====
section
/-! SUPPORT. The caller's chains, and when a line of the chain notation is a request. -/

namespace Sys2Proof.Machine

@[simp] theorem chain_nil (op : Op) (m : Mode) (c : Bool) : chain op m c [] = [] := rfl

theorem chain_cons (op : Op) (m : Mode) (c : Bool) (x y : Byte) (ps : List (Byte × Byte)) :
    chain op m c ((x, y) :: ps) =
      eval ⟨op, m, c, x, y⟩ :: chain op m (eval ⟨op, m, c, x, y⟩).C ps := rfl

@[simp] theorem length_chain (op : Op) (m : Mode) (c : Bool) (ps : List (Byte × Byte)) :
    (chain op m c ps).length = ps.length := by
  induction ps generalizing c with
  | nil => rfl
  | cons p ps ih => simp [chain, ih]

/-- The responses of a chain are those of its requests. -/
theorem map_eval_chainRequests (op : Op) (m : Mode) (c : Bool) (ps : List (Byte × Byte)) :
    (chainRequests op m c ps).map eval = chain op m c ps := by
  induction ps generalizing c with
  | nil => rfl
  | cons p ps ih => simp [chainRequests, chain, ih]

/-- A request number names a response exactly when that many have been taken (counted from 1). -/
theorem responseNumber_eq_some {taken : List Response} {k : Nat} {r : Response} :
    responseNumber taken k = some r ↔ 1 ≤ k ∧ taken[k - 1]? = some r := by
  cases k with
  | zero   => simp [responseNumber]
  | succ k => simp [responseNumber]

/-- Every request number from 1 to the number of responses taken names one. -/
theorem responseNumber_of_le {taken : List Response} {k : Nat} (h1 : 1 ≤ k) (h2 : k ≤ taken.length) :
    ∃ r, responseNumber taken k = some r :=
  ⟨taken[k - 1]'(by omega), responseNumber_eq_some.2 ⟨h1, List.getElem?_eq_getElem (by omega)⟩⟩

/-- A line is a request exactly when its three sources resolve, and then it is the request of what they resolve to. -/
theorem resolveLine_eq_some {taken : List Response} {l : Line} {r : Request} :
    resolveLine taken l = some r ↔
      r.op = l.op ∧ r.mode = l.mode ∧ resolveByte taken l.a = some r.a ∧
        resolveByte taken l.operand = some r.operand ∧ resolveCarry taken l.cin = some r.cin := by
  obtain ⟨op, mode, cin, a, operand⟩ := r
  unfold resolveLine
  split
  · rename_i x y z hx hy hz
    simp only [hx, hy, hz, Option.some.injEq, Request.mk.injEq]
    constructor
    · rintro ⟨rfl, rfl, rfl, rfl, rfl⟩; exact ⟨rfl, rfl, rfl, rfl, rfl⟩
    · rintro ⟨rfl, rfl, rfl, rfl, rfl⟩; exact ⟨rfl, rfl, rfl, rfl, rfl⟩
  · rename_i h
    simp only [reduceCtorEq, false_iff]
    rintro ⟨_, _, hx, hy, hz⟩
    exact h _ _ _ hx hy hz

/-- The lines of a program: the first resolves to a request, and the rest are a program after its response. -/
theorem programRequests_cons_eq_some {taken : List Response} {l : Line} {ls : List Line} {rs : List Request} :
    programRequests taken (l :: ls) = some rs ↔
      ∃ r rs', resolveLine taken l = some r ∧ programRequests (taken ++ [eval r]) ls = some rs' ∧ rs = r :: rs' := by
  cases h : resolveLine taken l with
  | none   => simp [programRequests, h]
  | some r =>
    simp only [programRequests, h, Option.map_eq_some_iff, Option.some.injEq, exists_and_left, exists_eq_left']
    exact exists_congr fun _ => and_congr_right fun _ => eq_comm

end Sys2Proof.Machine
end

