-- ==== Sys2Proof/Laws/Decode.lean ====
section
/-! SUPPORT. The small inverses that decoding and encoding are made of. -/

namespace Sys2Proof

@[simp] theorem opOfBit_opBit (o : Op) : opOfBit (opBit o) = o := by cases o <;> rfl
@[simp] theorem opBit_opOfBit (b : Bool) : opBit (opOfBit b) = b := by cases b <;> rfl
@[simp] theorem modeOfBit_modeBit (m : Mode) : modeOfBit (modeBit m) = m := by cases m <;> rfl
@[simp] theorem modeBit_modeOfBit (b : Bool) : modeBit (modeOfBit b) = b := by cases b <;> rfl

@[simp] theorem instrOfRequest_requestOfInstr (i : Instr) : instrOfRequest (requestOfInstr i) = i := by
  cases i <;> rfl

@[simp] theorem requestOfInstr_instrOfRequest (r : Request) : requestOfInstr (instrOfRequest r) = r := by
  obtain ⟨op, mode, cin, a, v⟩ := r
  cases op <;> cases mode <;> rfl

/-- A call in its domains is a request; any other is rejected. -/
theorem requestOfCall_eq (c : Call) :
    requestOfCall c =
      if c.wellFormed then
        .ok ⟨opOfBit (c.op == 1), modeOfBit (c.mode == 1), c.cin == 1, BitVec.ofNat 8 c.a, BitVec.ofNat 8 c.operand⟩
      else .error .contractViolation := rfl

/-- A call is well-formed exactly when every argument lies in its port's domain. -/
theorem wellFormed_iff (c : Call) :
    c.wellFormed = true ↔ c.op < 2 ∧ c.mode < 2 ∧ c.cin < 2 ∧ c.a < 256 ∧ c.operand < 256 := by
  simp [Call.wellFormed, and_assoc]

/-- The numbers that are requests are those below 2^19. -/
theorem callOfNumber_wellFormed (w : Nat) : (callOfNumber w).wellFormed = true ↔ w < 2 ^ 19 := by
  rw [wellFormed_iff]
  simp only [callOfNumber]
  omega

end Sys2Proof
end

