-- ==== Sys2Proof/Laws/Operands.lean ====
section
/-! SUPPORT. The reading functions pushed down to arithmetic: nibbles as div and mod by 16, bits and signs as
comparisons, and the steps of the four operations in those terms. -/

namespace Sys2Proof.Machine

theorem carryNumber_eq (b : Bool) : carryNumber b = b.toNat := by cases b <;> rfl

@[simp] theorem carryNumber_false : carryNumber false = 0 := rfl
@[simp] theorem carryNumber_true : carryNumber true = 1 := rfl

theorem carryNumber_le (b : Bool) : carryNumber b ≤ 1 := by cases b <;> decide

theorem lowNibble_eq (x : Byte) : lowNibble x = x.toNat % 16 :=
  Nat.and_two_pow_sub_one_eq_mod x.toNat 4

theorem lowNibble_lt (x : Byte) : lowNibble x < 16 := by
  rw [lowNibble_eq]; omega

theorem highNibbleInPlace_eq (x : Byte) : highNibbleInPlace x = x.toNat / 16 * 16 := by
  revert x; decide

theorem bit_eq_testBit (v i : Nat) : bit v i = v.testBit i := by
  simp only [bit, Nat.testBit, Nat.shiftRight_eq_div_pow, Nat.one_and_eq_mod_two]
  have := Nat.mod_two_eq_zero_or_one (v / 2 ^ i)
  rcases this with h | h <;> simp [h]

/-- The sign bit of a byte is set exactly from 128 upward. -/
theorem byteSign_eq (x : Byte) : byteSign x = decide (128 ≤ x.toNat) := by
  revert x; decide

/-- The result byte is the Euclidean remainder. -/
theorem truncate_toNat (v : Int) : ((truncate v).toNat : Int) = v % 256 := by
  have h0 := Int.emod_nonneg v (by decide : (256 : Int) ≠ 0)
  have h1 := Int.emod_lt_of_pos v (by decide : (0 : Int) < 256)
  simp only [truncate, BitVec.toNat_ofNat]
  omega

/-- The sign of a wide value is the sign of its byte. -/
theorem sign_eq_byteSign_truncate (v : Int) : sign v = byteSign (truncate v) := by
  have h0 := Int.emod_nonneg v (by decide : (256 : Int) ≠ 0)
  have h1 := Int.emod_lt_of_pos v (by decide : (0 : Int) < 256)
  simp only [sign, byteSign, truncate, BitVec.toNat_ofNat]
  rw [Nat.mod_eq_of_lt (by omega)]

/-- Bit 7 of a byte, as the statements write it, is its sign. -/
theorem getLsbD_seven (x : Byte) : x.getLsbD 7 = decide (128 ≤ x.toNat) := by
  revert x; decide

/-- The sign of a wide value as a comparison. -/
theorem sign_eq (v : Int) : sign v = decide (128 ≤ v % 256) := by
  rw [sign_eq_byteSign_truncate, byteSign_eq, decide_eq_decide]
  have := truncate_toNat v
  omega

/-- A low and a high nibble joined by `|` are their sum. -/
theorem nibbles_or (lo hi : Nat) : (lo &&& 0xF) ||| (hi &&& 0xF0) = hi / 16 % 16 * 16 + lo % 16 := by
  have hl : lo &&& 0xF = lo % 16 := Nat.and_two_pow_sub_one_eq_mod lo 4
  have hh : hi &&& 0xF0 = (hi / 16 % 16) * 16 := by
    apply Nat.eq_of_testBit_eq
    intro i
    have hm : (0xF0 : Nat) = 2 ^ 4 * (2 ^ 4 - 1) := rfl
    have ht : (hi / 16 % 16) * 16 = 2 ^ 4 * (hi / 2 ^ 4 % 2 ^ 4) := Nat.mul_comm _ _
    rw [Nat.testBit_and, hm, ht, Nat.testBit_two_pow_mul, Nat.testBit_two_pow_mul, Nat.testBit_two_pow_sub_one,
      Nat.testBit_mod_two_pow, Nat.testBit_div_two_pow]
    by_cases h : 4 ≤ i
    · simp [h, Bool.and_comm]
    · simp [h]
  rw [hl, hh, Nat.or_comm, Nat.mul_comm]
  exact (Nat.two_pow_add_eq_or_of_lt (i := 4) (Nat.mod_lt lo (by decide)) (hi / 16 % 16)).symm

/-- R80 (7): the result of `ADD.DEC` by its nibbles. -/
theorem addDecResult_toNat (a v : Byte) (c : Bool) :
    (addDecResult a v c).toNat =
      addDecHighCorrected a v c / 16 % 16 * 16 + addDecLowCorrected a v c % 16 := by
  rw [addDecResult, nibbles_or, BitVec.toNat_ofNat, Nat.mod_eq_of_lt (by omega)]

/-- The uncorrected difference stays in its range. -/
theorem subWide0_range (a v : Byte) (c : Bool) : -256 ≤ subWide0 a v c ∧ subWide0 a v c ≤ 255 := by
  have := carryNumber_le c
  have := a.isLt
  have := v.isLt
  unfold subWide0
  omega

theorem addDecLow_eq (a v : Byte) (c : Bool) :
    addDecLow a v c = a.toNat % 16 + v.toNat % 16 + carryNumber c := by
  simp only [addDecLow, lowNibble_eq]

theorem addDecHigh_eq (a v : Byte) : addDecHigh a v = 16 * (a.toNat / 16 + v.toNat / 16) := by
  simp only [addDecHigh, highNibbleInPlace_eq]; omega

theorem subDecLowProbe_eq (a v : Byte) (c : Bool) :
    subDecLowProbe a v c = (a.toNat % 16 : Int) - (v.toNat % 16 : Int) + carryNumber c - 1 := by
  simp only [subDecLowProbe, lowNibble_eq]; omega

theorem validBcd_iff (x : Byte) : validBcd x = true ↔ x.toNat / 16 ≤ 9 ∧ x.toNat % 16 ≤ 9 := by
  simp [validBcd]

theorem dec_lt_of_validBcd {x : Byte} (h : validBcd x = true) : dec x < 100 := by
  rw [validBcd_iff] at h
  unfold dec
  omega

end Sys2Proof.Machine
end

