-- ==== Sys2Proof/Laws/State.lean ====
section
/-! SUPPORT. One lemma per field of State and operation that changes it, and what a request is worth as a number. -/

namespace Sys2Proof.Machine

@[simp] theorem State.reset_requests : State.reset.requests = [] := rfl
@[simp] theorem State.reset_responses : State.reset.responses = [] := rfl

@[simp] theorem deliver_requests (r : Response) (s : State) : (deliver r s).requests = s.requests := rfl
@[simp] theorem deliver_responses (r : Response) (s : State) : (deliver r s).responses = s.responses ++ [r] := rfl

@[simp] theorem enqueue_requests (r : Request) (s : State) : (enqueue r s).requests = s.requests ++ [r] := rfl
@[simp] theorem enqueue_responses (r : Request) (s : State) : (enqueue r s).responses = s.responses := rfl

/-- Two states with equal fields are equal. -/
theorem State.eq_of_fields {s t : State} (hq : s.requests = t.requests) (hp : s.responses = t.responses) : s = t := by
  cases s; cases t; cases hq; cases hp; rfl

/-- A fetch word never touches the responses. -/
@[simp] theorem State.withFetchWord_responses (s : State) (n w : Nat) :
    (s.withFetchWord n w).responses = s.responses := by
  unfold State.withFetchWord
  split <;> rfl

/-- A number that is a request is presented before the others. -/
theorem State.withFetchWord_of_request {w : Nat} {r : Request} (h : requestOfNumber w = .ok r) (s : State) (n : Nat) :
    s.withFetchWord n w = { s with requests := r :: s.requests } := by
  simp only [State.withFetchWord, h]

/-- A number that is no request presents nothing. -/
theorem State.withFetchWord_of_reject {w : Nat} {e : DecodeReject} (h : requestOfNumber w = .error e) (s : State)
    (n : Nat) : s.withFetchWord n w = s := by
  simp only [State.withFetchWord, h]

end Sys2Proof.Machine
end

