-- ==== Sys2Proof/Laws/Ops.lean ====
section
/-! SUPPORT. What each shared operation can do, said once. -/

namespace Sys2Proof.Machine

@[simp] theorem takeRequest_nil (ps : List Response) : takeRequest ⟨[], ps⟩ = none := rfl

@[simp] theorem takeRequest_cons (r : Request) (rs : List Request) (ps : List Response) :
    takeRequest ⟨r :: rs, ps⟩ = some (r, ⟨rs, ps⟩) := rfl

/-- Nothing is taken exactly when the caller presents nothing. -/
theorem takeRequest_eq_none {s : State} : takeRequest s = none ↔ s.requests = [] := by
  obtain ⟨_ | ⟨r, rs⟩, ps⟩ := s <;> simp

/-- Taking the next request takes it off the list and does nothing else. -/
theorem takeRequest_eq_some {s s' : State} {r : Request} (h : takeRequest s = some (r, s')) :
    s.requests = r :: s'.requests ∧ s'.responses = s.responses := by
  obtain ⟨_ | ⟨q, rs⟩, ps⟩ := s
  · simp at h
  · obtain ⟨rfl, rfl⟩ := by simpa using h
    exact ⟨rfl, rfl⟩

/-- A call is presented as the request it is, or refused. -/
theorem present_cases (c : Call) (s : State) :
    (∃ r, requestOfCall c = .ok r ∧ present c s = .next (enqueue r s)) ∨
      (∃ e, requestOfCall c = .error e ∧ present c s = .refused .contractViolation) := by
  unfold present
  cases requestOfCall c with
  | ok r    => exact .inl ⟨r, rfl, rfl⟩
  | error e => exact .inr ⟨e, rfl, rfl⟩

/-- Every meaning is a shared shape: it delivers its operation's response. -/
theorem exec_eq (i : Instr) (s : State) : exec i s = .next (deliver (respond i) s) := by
  cases i <;> rfl

/-- Everything a step can do: nothing when nothing is presented, one evaluation otherwise. -/
theorem step_cases {s t : State} (h : step s = .next t) :
    (s.requests = [] ∧ t = s) ∨
      (∃ r rs, s.requests = r :: rs ∧ t = ⟨rs, s.responses ++ [eval r]⟩) := by
  obtain ⟨_ | ⟨r, rs⟩, ps⟩ := s
  · exact .inl ⟨rfl, by simpa [step] using h.symm⟩
  · refine .inr ⟨r, rs, rfl, ?_⟩
    simpa [step, exec_eq, deliver, eval] using h.symm

end Sys2Proof.Machine
end

