-- ==== Sys2Proof/Laws/PerInstr.lean ====
section
/-! SUPPORT. What holds of every operation as syntax, one lemma per constructor. -/

namespace Sys2Proof.Laws

/-- R62, R63: every operation has its ports in their domains. -/
def WellFormed.Statement (i : Instr) : Prop := i.wellFormed = true

theorem wellFormed_of_ports {o m : Nat} (ho : o < 2) (hm : m < 2) (a v : Byte) (c : Bool) :
    Call.wellFormed ⟨o, m, c.toNat, a.toNat, v.toNat⟩ = true := by
  have ha : a.toNat < 256 := a.isLt
  have hv : v.toNat < 256 := v.isLt
  have hc : c.toNat < 2 := by cases c <;> decide
  simp [Call.wellFormed, ho, hm, hc, ha, hv]

theorem WellFormed.addBin (a v : Byte) (c : Bool) : WellFormed.Statement (.addBin a v c) :=
  wellFormed_of_ports (by decide) (by decide) a v c

theorem WellFormed.addDec (a v : Byte) (c : Bool) : WellFormed.Statement (.addDec a v c) :=
  wellFormed_of_ports (by decide) (by decide) a v c

theorem WellFormed.subBin (a v : Byte) (c : Bool) : WellFormed.Statement (.subBin a v c) :=
  wellFormed_of_ports (by decide) (by decide) a v c

theorem WellFormed.subDec (a v : Byte) (c : Bool) : WellFormed.Statement (.subDec a v c) :=
  wellFormed_of_ports (by decide) (by decide) a v c

/-- The `match` column of the operation's row of spec/opcode_table.json (R59). -/
def opcodeMatch : Instr → Nat
  | .addBin _ _ _ => 0x00000
  | .addDec _ _ _ => 0x20000
  | .subBin _ _ _ => 0x40000
  | .subDec _ _ _ => 0x60000

/-- R59, R61: under the table's mask 0x60000 an operation's word is its row's `match`. -/
def OpcodeRow.Statement (i : Instr) : Prop := (encode i).toNat &&& 0x60000 = opcodeMatch i

theorem masked_wordOfRequest (r : Request) :
    (wordOfRequest r) &&& 0x60000#19 =
      BitVec.ofBool (opBit r.op) ++ BitVec.ofBool (modeBit r.mode) ++ 0#17 := by
  ext j hj
  have hm : (0x60000#19).getLsbD j = decide (17 ≤ j) := by
    have : ∀ k : Fin 19, (0x60000#19).getLsbD k.val = decide (17 ≤ k.val) := by decide
    exact this ⟨j, hj⟩
  simp only [← BitVec.getLsbD_eq_getElem, BitVec.getLsbD_and, hm, wordOfRequest, BitVec.getLsbD_append]
  obtain h | rfl | rfl : j < 17 ∨ j = 17 ∨ j = 18 := by omega
  · simp [h]
  · simp
  · simp

theorem masked_toNat (o : Op) (m : Mode) (c : Bool) (a v : Byte) :
    (wordOfRequest ⟨o, m, c, a, v⟩).toNat &&& 0x60000 =
      (BitVec.ofBool (opBit o) ++ BitVec.ofBool (modeBit m) ++ 0#17).toNat :=
  congrArg BitVec.toNat (masked_wordOfRequest ⟨o, m, c, a, v⟩)

theorem OpcodeRow.addBin (a v : Byte) (c : Bool) : OpcodeRow.Statement (.addBin a v c) :=
  (masked_toNat .add .binary c a v).trans (by simp [opcodeMatch, opBit, modeBit])

theorem OpcodeRow.addDec (a v : Byte) (c : Bool) : OpcodeRow.Statement (.addDec a v c) :=
  (masked_toNat .add .decimal c a v).trans (by simp [opcodeMatch, opBit, modeBit])

theorem OpcodeRow.subBin (a v : Byte) (c : Bool) : OpcodeRow.Statement (.subBin a v c) :=
  (masked_toNat .subtract .binary c a v).trans (by simp [opcodeMatch, opBit, modeBit])

theorem OpcodeRow.subDec (a v : Byte) (c : Bool) : OpcodeRow.Statement (.subDec a v c) :=
  (masked_toNat .subtract .decimal c a v).trans (by simp [opcodeMatch, opBit, modeBit])

end Sys2Proof.Laws
end

