-- ==== Sys2Proof/Laws/Run.lean ====
section
/-! SUPPORT. One step of a run of the machine, in the two forms it can take. -/

namespace Sys2Proof.Machine

/-- A run whose first step goes on is the run of the rest. -/
theorem run_succ_of_step (M : Host.Core) (k : Nat) {s t : M.State} (h : M.step s = .next t) :
    M.run (k + 1) s = M.run k t := by
  simp only [Host.Core.run, h]

/-- A run with a request waiting goes on from the state in which it has been answered. -/
theorem run_succ_cons (k : Nat) (r : Request) (rs : List Request) (ps : List Response) :
    Host.Core.run core (k + 1) (⟨r :: rs, ps⟩ : State) = Host.Core.run core k (⟨rs, ps ++ [eval r]⟩ : State) :=
  run_succ_of_step core k (exec_eq (instrOfRequest r) ⟨rs, ps⟩)

/-- A run with nothing waiting stays where it is. -/
theorem run_succ_nil (k : Nat) (ps : List Response) :
    Host.Core.run core (k + 1) (⟨[], ps⟩ : State) = Host.Core.run core k (⟨[], ps⟩ : State) := rfl

end Sys2Proof.Machine
end

