-- ==== Sys2Proof/Tests/Slice0.lean ====
section
/-! SUPPORT. The model's own tests. Expected values come from the spec: the words from the patterns of
spec/30_encoding.md R61, the responses from spec/95_test_vectors.md (sections named at each test). -/

namespace Sys2Proof.Tests

open Sys2Proof Sys2Proof.Machine

/-! ### Decoding: words written out bit by bit from the patterns of R61 -/

theorem test_decode_addBin : decode 0b00_0_01111111_00000001#19 = .addBin 0x7F 0x01 false := by decide
theorem test_decode_addDec : decode 0b01_1_00011001_00101000#19 = .addDec 0x19 0x28 true := by decide
theorem test_decode_subBin : decode 0b10_0_10000000_01111111#19 = .subBin 0x80 0x7F false := by decide
theorem test_decode_subDec : decode 0b11_1_00010000_00001011#19 = .subDec 0x10 0x0B true := by decide

/-- The `REQ` column of 95_test_vectors.md, as numbers of three whole bytes. -/
theorem test_encode_words :
    encode (.addBin 0x7F 0x01 false) = 0x07F01#19 ∧ encode (.addDec 0x19 0x28 true) = 0x31928#19 ∧
      encode (.subBin 0x80 0x7F false) = 0x4807F#19 ∧ encode (.subDec 0x10 0x0B true) = 0x7100B#19 := by decide

theorem test_table_words :
    decodeTableWord 24 0x00000 = some (.addBin 0 0 false) ∧ decodeTableWord 24 0x20000 = some (.addDec 0 0 false) ∧
      decodeTableWord 24 0x40000 = some (.subBin 0 0 false) ∧ decodeTableWord 24 0x60000 = some (.subDec 0 0 false) ∧
      decodeTableWord 24 0x7FFFF = some (.subDec 0xFF 0xFF true) ∧ decodeTableWord 24 0x80000 = none := by decide

/-! ### Well-formedness: one ill-formed call for each check, refused at the boundary (R63) -/

theorem smoke_op : present ⟨2, 0, 0, 0, 0⟩ State.reset = .refused .contractViolation := rfl
theorem smoke_mode : present ⟨0, 2, 0, 0, 0⟩ State.reset = .refused .contractViolation := rfl
theorem smoke_cin : present ⟨0, 0, 2, 0, 0⟩ State.reset = .refused .contractViolation := rfl
theorem smoke_a : present ⟨0, 0, 0, 256, 0⟩ State.reset = .refused .contractViolation := rfl
theorem smoke_operand : present ⟨0, 0, 0, 0, 256⟩ State.reset = .refused .contractViolation := rfl
theorem smoke_wellFormed :
    Call.wellFormed ⟨2, 0, 0, 0, 0⟩ = false ∧ Call.wellFormed ⟨0, 2, 0, 0, 0⟩ = false ∧
      Call.wellFormed ⟨0, 0, 2, 0, 0⟩ = false ∧ Call.wellFormed ⟨0, 0, 0, 256, 0⟩ = false ∧
      Call.wellFormed ⟨0, 0, 0, 0, 256⟩ = false ∧ Call.wellFormed ⟨1, 1, 1, 255, 255⟩ = true := by decide

/-! ### One step of each operation: a request word presented at reset, and the packed response -/

/-- The packed responses that one step on the request word `req` leaves. -/
def stepResponses (req : Nat) : List Nat :=
  match step (State.reset.withFetchWord 24 req) with
  | .next s    => s.responses.map fun r => (wordOfResponse r).toNat
  | .fault _   => []
  | .refused _ => []

/-- The rows (`REQ`, `RSP`) that one step answers. -/
def answers (rows : List (Nat × Nat)) : Bool := rows.all fun row => stepResponses row.1 == [row.2]

/-- 95_test_vectors.md section 2.1: scenarios 2 and 3, overflow either way, largest sum, carry-in ripple. -/
theorem test_addBin : answers [(0x00000, 0x200), (0x0FF01, 0x300), (0x07F01, 0xC80), (0x080FF, 0x57F), (0x1FFFF, 0x9FF),
    (0x155AA, 0x300), (0x08080, 0x700), (0x0C0C0, 0x980)] = true := by decide

/-- 95_test_vectors.md section 2.2: scenario 1, both corrections, invalid packed BCD, V with `hi` above 0xFF. -/
theorem test_addDec : answers [(0x27901, 0xC80), (0x29901, 0x300), (0x39999, 0xD99), (0x28080, 0x560), (0x3FFFF, 0x155),
    (0x2F0F0, 0x140), (0x28901, 0x890), (0x30F0F, 0x015), (0x27F01, 0xC86)] = true := by decide

/-- 95_test_vectors.md section 2.3: scenario 4, the integer carry, least difference, Z with V. -/
theorem test_subBin : answers [(0x50001, 0x8FF), (0x40000, 0x8FF), (0x400FF, 0x200), (0x4807F, 0x700), (0x57F80, 0xCFF),
    (0x58001, 0x57F), (0x5FF00, 0x9FF)] = true := by decide

/-- 95_test_vectors.md section 2.4: each correction alone and both, least `wide`, invalid packed BCD (section 5). -/
theorem test_subDec : answers [(0x70001, 0x899), (0x71005, 0x105), (0x71221, 0x891), (0x600FF, 0x89A), (0x7100B, 0x9FF),
    (0x78001, 0x579), (0x70A00, 0x10A), (0x7050A, 0x895)] = true := by decide

/-- 95_test_vectors.md section 2.2, intermediates of `0xFF + 0xFF + 1`: lo0, hi0, lo1, hiV, hiF. -/
theorem test_addDec_intermediates :
    addDecLow 0xFF 0xFF true = 31 ∧ addDecHigh 0xFF 0xFF = 0x1E0 ∧ addDecLowCorrected 0xFF 0xFF true = 37 ∧
      addDecHighAtV 0xFF 0xFF true = 0x1F0 ∧ addDecHighCorrected 0xFF 0xFF true = 0x250 := by decide

/-- 95_test_vectors.md section 2.4, intermediates of `0x00 - 0xFF` with cin 0: wide0, lo, wide. -/
theorem test_subDec_intermediates :
    subWide0 0x00 0xFF false = -256 ∧ subDecLowProbe 0x00 0xFF false = -16 ∧ subDecWide 0x00 0xFF false = -358 := by
  decide

/-- R65, R66: the texts of KSIM's scenario 1 and of the response of scenario 2. -/
theorem test_texts :
    mnemonicText (.addDec 0x79 0x01 false) =
        ['A', 'D', 'D', '.', 'D', 'E', 'C', ' ', '0', 'x', '7', '9', ',', ' ', '0', 'x', '0', '1', ',', ' ', '0'] ∧
      callText (.subBin 0x00 0x01 true) =
        ['S', 'u', 'b', 't', 'r', 'a', 'c', 't', '(', '0', 'x', '0', '0', ',', ' ', '0', 'x', '0', '1', ',', ' ', '1',
          ',', ' ', 'B', 'i', 'n', 'a', 'r', 'y', ')'] ∧
      responseText ⟨0x00, false, false, true, false⟩ =
        ['r', 'e', 's', 'u', 'l', 't', '=', '0', 'x', '0', '0', ' ', 'N', '=', '0', ' ', 'V', '=', '0', ' ', 'Z', '=',
          '1', ' ', 'C', '=', '0'] := by decide

/-! ### The caller's programs of 95_test_vectors.md section 4 -/

/-- P2 (1999 + 0001) and P9 (`ADD.DEC` then `SUB.DEC`), in the notation of R67. -/
def programP2 : List Line :=
  [⟨.add, .decimal, .literal 0x99, .literal 0x01, .literal false⟩, ⟨.add, .decimal, .literal 0x19, .literal 0x00, .carryOf 1⟩]

def programP9 : List Line :=
  [⟨.add, .decimal, .literal 0x58, .literal 0x46, .literal false⟩,
   ⟨.subtract, .decimal, .resultOf 1, .literal 0x46, .literal true⟩]

theorem test_programs :
    (programResponses programP2).map (·.map wordOfResponse) = some [0x300#12, 0x020#12] ∧
      (programResponses programP9).map (·.map wordOfResponse) = some [0x504#12, 0x058#12] := by decide

/-- P3: 0x1000 - 0x0001, the low bytes first, and the bytes of the difference 0x0FFF. -/
theorem test_chain :
    (chain .subtract .binary true [(0x00, 0x01), (0x10, 0x00)]).map Response.result = [0xFF, 0x0F] ∧
      bytesValue [0xFF, 0x0F] = 0x0FFF := by decide

/-! ### Witnesses: for each statement with hypotheses, data that meet them together, at the ends of each clause -/

theorem witness_DecodeSelectsByOpAndModeBits :
    (0x00000#19).extractLsb' 17 2 = 0b00#2 ∧ (0x1FFFF#19).extractLsb' 17 2 = 0b00#2 ∧
      (0x20000#19).extractLsb' 17 2 = 0b01#2 ∧ (0x3FFFF#19).extractLsb' 17 2 = 0b01#2 ∧
      (0x40000#19).extractLsb' 17 2 = 0b10#2 ∧ (0x5FFFF#19).extractLsb' 17 2 = 0b10#2 ∧
      (0x60000#19).extractLsb' 17 2 = 0b11#2 ∧ (0x7FFFF#19).extractLsb' 17 2 = 0b11#2 := by decide

theorem witness_NumbersOutsideTheRequestWordAreRejected :
    0x7FFFF < 2 ^ 19 ∧ 2 ^ 19 ≤ 0x80000 ∧ decodeTableWord 24 0x7FFFF ≠ none ∧ decodeTableWord 24 0x80000 = none := by
  decide

theorem witness_BoundaryRefusesContractViolations :
    ((1 < 2 ∧ 1 < 2 ∧ 1 < 2 ∧ 255 < 256 ∧ 255 < 256) ∧ requestOfCall ⟨1, 1, 1, 255, 255⟩ =
        .ok ⟨.subtract, .decimal, true, 0xFF, 0xFF⟩) ∧
      (¬ (0 < 2 ∧ 0 < 2 ∧ 2 < 2 ∧ 0 < 256 ∧ 0 < 256) ∧ requestOfCall ⟨0, 0, 2, 0, 0⟩ = .error .contractViolation) :=
  ⟨⟨by decide, rfl⟩, by decide, rfl⟩

theorem witness_PresentedCallIsAnsweredInTurn :
    requestOfCall ⟨0, 1, 0, 0x79, 0x01⟩ = .ok ⟨.add, .decimal, false, 0x79, 0x01⟩ ∧ State.reset.requests = [] :=
  ⟨rfl, rfl⟩

theorem witness_TextDenotesOneOperation :
    mnemonicText (.addBin 0 0 false) = mnemonicText (.addBin 0 0 false) ∧
      callText (.subDec 0xFF 0xFF true) = callText (.subDec 0xFF 0xFF true) := ⟨rfl, rfl⟩

theorem witness_FetchWordRunsNext : decodeTableWord 24 0x27901 = some (.addDec 0x79 0x01 false) := by decide

theorem witness_NoEvaluationFaultsOrRefuses :
    (State.reset.withFetchWord 24 0x27901).requests ≠ [] := by decide

theorem witness_OrderOfRequestsDoesNotMatter :
    List.Perm [(⟨.add, .binary, false, 1, 2⟩ : Request), ⟨.subtract, .decimal, true, 3, 4⟩]
      [⟨.subtract, .decimal, true, 3, 4⟩, ⟨.add, .binary, false, 1, 2⟩] := List.Perm.swap _ _ _

/-- A state with a response taken and a request waiting. -/
def midRun : State := ⟨[⟨.add, .decimal, false, 0x79, 0x01⟩], [⟨0x00, false, false, true, false⟩]⟩

theorem witness_StepKeepsFlagsAgree :
    AllFlagsAgree midRun ∧
      step midRun = .next ⟨[], [⟨0x00, false, false, true, false⟩, ⟨0x80, true, true, false, false⟩]⟩ := by
  refine ⟨?_, rfl⟩
  intro r hr
  obtain rfl : r = ⟨0x00, false, false, true, false⟩ := by simpa [midRun] using hr
  exact ⟨rfl, rfl⟩

theorem witness_StepKeepsAnswers :
    Answers [] [⟨.add, .binary, false, 0, 0⟩, ⟨.add, .decimal, false, 0x79, 0x01⟩] midRun ∧
      step midRun = .next ⟨[], [⟨0x00, false, false, true, false⟩, ⟨0x80, true, true, false, false⟩]⟩ ∧
      midRun.requests ≠ [] :=
  ⟨⟨[⟨.add, .binary, false, 0, 0⟩], rfl, rfl⟩, rfl, by decide⟩

/-- A call accepted with a request waiting and one answered, and a call refused there. -/
theorem witness_PresentKeepsAnswers :
    Answers [] [⟨.add, .binary, false, 0, 0⟩, ⟨.add, .decimal, false, 0x79, 0x01⟩] midRun ∧
      requestOfCall ⟨1, 1, 1, 255, 255⟩ = .ok ⟨.subtract, .decimal, true, 0xFF, 0xFF⟩ ∧
      requestOfCall ⟨0, 0, 0, 256, 0⟩ = .error .contractViolation :=
  ⟨⟨[⟨.add, .binary, false, 0, 0⟩], rfl, rfl⟩, rfl, rfl⟩

/-- The uniqueness clauses are met, and only just: the neighbours of the one request do not meet them. -/
theorem witness_AddBinGivesSumAndFlags :
    (respond (.addBin 0x80 0x80 false)).Z = true ∧ (respond (.addBin 0x80 0x80 false)).V = true ∧
      (respond (.addBin 0x80 0x80 true)).Z = false := by decide

theorem witness_AddDecCarryThreshold :
    (respond (.addDec 0x99 0x01 false)).C = true ∧ (respond (.addDec 0x89 0x01 false)).C = false := by decide

theorem witness_AddDecAddsPackedDecimals : validBcd 0x99 = true ∧ validBcd 0x00 = true ∧ validBcd 0x9A = false := by
  decide

theorem witness_SubBinGivesDifferenceAndFlags :
    (respond (.subBin 0x00 0xFF false)).Z = true ∧ (respond (.subBin 0x00 0xFF false)).C = false ∧
      (respond (.subBin 0x80 0x7F false)).Z = true ∧ (respond (.subBin 0x80 0x7F false)).V = true ∧
      (respond (.subBin 0x80 0x80 true)).result = 0 := by decide

theorem witness_SubtractCarryComparesIntegers : 9 ≤ 9 ∧ (respond (.subBin 0 0 false)).C = false := by decide

theorem witness_SubBinIsTheTrueDifference : (respond (.subBin 0x40 0x40 true)).Z = true := by decide

/-- The four cases of the two corrections: both, the high one, the low one, none. -/
theorem witness_SubDecGivesCorrectedDifference :
    (subWide0 0x00 0x01 true < 0 ∧ subDecLowProbe 0x00 0x01 true < 0) ∧
      (subWide0 0x12 0x21 true < 0 ∧ ¬ subDecLowProbe 0x12 0x21 true < 0) ∧
      (¬ subWide0 0x10 0x05 true < 0 ∧ subDecLowProbe 0x10 0x05 true < 0) ∧
      (¬ subWide0 0x00 0x00 true < 0 ∧ ¬ subDecLowProbe 0x00 0x00 true < 0) := by decide

theorem witness_SubDecSubtractsPackedDecimals :
    validBcd 0x00 = true ∧ validBcd 0x99 = true ∧ (respond (.subDec 0x00 0x99 true)).result = 0x01 := by decide

theorem witness_SubtractInUnsignedRegisters : (9 : Nat) ≤ 9 ∧ (9 : Nat) ≤ 16 := by decide

theorem witness_DecimalAddAndSubtractAreInverse : validBcd 0x58 = true ∧ validBcd 0x46 = true := by decide

theorem witness_SubtractionComparesItsOperands : validBcd 0x40 = true ∧ validBcd 0x13 = true := by decide

/-- P1: 0x12FF + 0x0001. -/
theorem witness_AddBinChainAddsNumbers :
    (chain .add .binary false [(0xFF, 0x01), (0x12, 0x00)]).getLast? = some ⟨0x13, false, false, false, false⟩ := by
  decide

theorem witness_SubBinChainSubtractsNumbers :
    (chain .subtract .binary true [(0x00, 0x01), (0x10, 0x00)]).getLast? = some ⟨0x0F, false, false, false, true⟩ := by
  decide

/-- P7: 999999 + 000001. -/
theorem witness_AddDecChainAddsDecimals :
    (∀ p ∈ [((0x99 : Byte), (0x01 : Byte)), (0x99, 0x00), (0x99, 0x00)],
        validBcd p.1 = true ∧ validBcd p.2 = true) ∧
      (chain .add .decimal false [(0x99, 0x01), (0x99, 0x00), (0x99, 0x00)]).getLast? =
        some ⟨0x00, false, false, true, true⟩ := ⟨by simp [validBcd], by decide⟩

/-- P4: 1000 - 0001. -/
theorem witness_SubDecChainSubtractsDecimals :
    (∀ p ∈ [((0x00 : Byte), (0x01 : Byte)), (0x10, 0x00)], validBcd p.1 = true ∧ validBcd p.2 = true) ∧
      (chain .subtract .decimal true [(0x00, 0x01), (0x10, 0x00)]).getLast? =
        some ⟨0x09, false, false, false, true⟩ := ⟨by simp [validBcd], by decide⟩

/-- P8: 0x7FFF + 0x0001, the signed overflow of 16 bits; and 0x0000 - 0x0001. -/
theorem witness_LastFlagsOfABinaryChain :
    (chain .add .binary false [(0xFF, 0x01), (0x7F, 0x00)]).getLast? = some ⟨0x80, true, true, false, false⟩ ∧
      (chain .subtract .binary true [(0x00, 0x01), (0x00, 0x00)]).getLast? =
        some ⟨0xFF, true, false, false, false⟩ := by decide

theorem witness_ChainRunsOnTheMachine :
    (chainRequests .add .binary false [(0xFF, 0x01), (0x12, 0x00)])[0]? = some ⟨.add, .binary, false, 0xFF, 0x01⟩ ∧
      (chainRequests .add .binary false [(0xFF, 0x01), (0x12, 0x00)])[0 + 1]? =
        some ⟨.add, .binary, true, 0x12, 0x00⟩ := by decide

/-- Every reference of P9 is to an earlier request, the last possible one (k = n on the line of index 1). -/
theorem witness_ChainNotationNamesEarlierOutputs_references :
    ∀ (n : Nat) (l : Line), programP9[n]? = some l →
      (∀ k, l.cin = .carryOf k → 1 ≤ k ∧ k ≤ n) ∧ (∀ k, l.a = .resultOf k → 1 ≤ k ∧ k ≤ n) ∧
        (∀ k, l.operand = .resultOf k → 1 ≤ k ∧ k ≤ n) := by
  intro n l h
  match n with
  | 0     => obtain rfl := by simpa [programP9] using h.symm
             simp
  | 1     => obtain rfl := by simpa [programP9] using h.symm
             simp
  | n + 2 => simp [programP9] at h

/-- P9 refers to the request just before (k = n), P2 to a carry; a reference to a later request gives no program. -/
theorem witness_ChainNotationNamesEarlierOutputs :
    programRequests [] programP9 =
        some [⟨.add, .decimal, false, 0x58, 0x46⟩, ⟨.subtract, .decimal, true, 0x04, 0x46⟩] ∧
      programRequests [] programP2 =
        some [⟨.add, .decimal, false, 0x99, 0x01⟩, ⟨.add, .decimal, true, 0x19, 0x00⟩] ∧
      programRequests [] [⟨.add, .binary, .literal 0, .literal 0, .carryOf 1⟩] = none := by decide

end Sys2Proof.Tests
end

section
/-! PROOFS. Scope: an operation delivers its response, a step answers the next request, a run answers them all. -/

namespace Sys2Proof.Proofs

open Sys2Proof Sys2Proof.Machine

/-- R14: the step that takes a request is its evaluation. -/
theorem step_cons (r : Request) (rs : List Request) (ps : List Response) :
    step ⟨r :: rs, ps⟩ = .next ⟨rs, ps ++ [eval r]⟩ :=
  exec_eq (instrOfRequest r) ⟨rs, ps⟩

/-- However long a run with nothing waiting goes on, it changes nothing. -/
theorem run_nil (k : Nat) (ps : List Response) :
    Host.Core.run core k (⟨[], ps⟩ : State) = .next (⟨[], ps⟩ : State) := by
  induction k with
  | zero => rfl
  | succ k ih => exact (run_succ_nil k ps).trans ih

/-- A run answers the waiting requests in order, one per step, and then goes on with none waiting. -/
theorem run_length_add (k : Nat) (rs : List Request) (ps : List Response) :
    Host.Core.run core (rs.length + k) (⟨rs, ps⟩ : State) =
      Host.Core.run core k (⟨[], ps ++ rs.map eval⟩ : State) := by
  induction rs generalizing ps with
  | nil => simp
  | cons r rs ih =>
    calc Host.Core.run core ((r :: rs).length + k) (⟨r :: rs, ps⟩ : State)
        = Host.Core.run core (rs.length + k + 1) (⟨r :: rs, ps⟩ : State) := by
          rw [List.length_cons, Nat.add_right_comm]
      _ = Host.Core.run core (rs.length + k) (⟨rs, ps ++ [eval r]⟩ : State) := run_succ_cons _ r rs ps
      _ = Host.Core.run core k (⟨[], ps ++ (r :: rs).map eval⟩ : State) := by
          rw [ih, List.append_assoc, List.map_cons, List.singleton_append]

/-- Settles O17: the run through the requests is an induction over their list, and after it nothing waits. -/
theorem runAnswersEveryRequest : Obligations.RunAnswersEveryRequest := by
  rintro ⟨rs, ps⟩
  have hrun (k : Nat) : Host.Core.run core (rs.length + k) (⟨rs, ps⟩ : State) =
      .next (⟨[], ps ++ rs.map eval⟩ : State) := (run_length_add k rs ps).trans (run_nil k _)
  exact ⟨hrun 0, hrun⟩

/-- Settles O12: every operation has the one shape of `exec_eq`, and delivering writes the responses only. -/
theorem execDeliversTheResponse : Obligations.ExecDeliversTheResponse := exec_eq

/-- Settles O13: a word is taken as the request it encodes, whose operation is what the word decodes to. -/
theorem stepEvaluatesTheNextRequest : Obligations.StepEvaluatesTheNextRequest :=
  ⟨fun _ _ _ => rfl, step_cons⟩

end Sys2Proof.Proofs
end

section
/-! PROOFS. State: what every step keeps, that a step only ever ends in a response, and chains run on the machine. -/

namespace Sys2Proof.Proofs

open Sys2Proof Sys2Proof.Machine

/-! ### N and Z agree with the result -/

/-- R25, R26: however V and C were found, N and Z are computed from the result. -/
theorem flagsAgree_responseWith (result : Byte) (v c : Bool) : FlagsAgree (responseWith result v c) := by
  have hN : flagN result = result.getLsbD 7 := (byteSign_eq result).trans (getLsbD_seven result).symm
  have hZ : flagZ result = decide (result.toNat = 0) := by
    rw [flagZ, Bool.beq_eq_decide_eq, decide_eq_decide]
    exact BitVec.toNat_inj.symm
  exact ⟨hN, hZ⟩

/-- R113: N and Z agree with the result in the response of every operation. -/
theorem flagsAgree_respond (i : Instr) : FlagsAgree (respond i) := by
  cases i with
  | addBin a v c => exact flagsAgree_responseWith _ _ _
  | addDec a v c => exact flagsAgree_responseWith _ _ _
  | subBin a v c => exact flagsAgree_responseWith _ _ _
  | subDec a v c => exact flagsAgree_responseWith _ _ _

/-- Settles O21: a step adds at most the response of one evaluation, and in that N and Z agree with the result. -/
theorem stepKeepsFlagsAgree : Obligations.StepKeepsFlagsAgree := by
  intro s s' hs hstep
  obtain ⟨-, rfl⟩ | ⟨r, rs, -, rfl⟩ := step_cases hstep
  · exact hs
  · intro p hp
    obtain hp | rfl : p ∈ s.responses ∨ p = eval r := by simpa using hp
    · exact hs p hp
    · exact flagsAgree_respond (instrOfRequest r)

/-! ### The requests taken are those answered -/

/-- R145: answering the next request in line moves it from those waiting to those answered. -/
theorem answers_after_next {before : List Response} {presented rs : List Request} {s : State} {r : Request}
    (h : Answers before presented s) (hnext : s.requests = r :: rs) :
    Answers before presented ⟨rs, s.responses ++ [eval r]⟩ := by
  obtain ⟨done, hpresented, hresponses⟩ := h
  exact ⟨done ++ [r], by simp [hpresented, hnext], by simp [hresponses]⟩

/-- Settles O23: at the start none is answered, and a step either changes nothing or answers the next in line. -/
theorem stepKeepsAnswers : Obligations.StepKeepsAnswers := by
  refine ⟨fun before rs => ⟨[], by simp, by simp⟩, ?_⟩
  intro before presented s s' h hstep
  obtain ⟨hidle, rfl⟩ | ⟨r, rs, hnext, rfl⟩ := step_cases hstep
  · exact ⟨h, fun hne => absurd hidle hne⟩
  · exact ⟨answers_after_next h hnext, fun _ => List.length_append⟩

/-! ### The one outcome, and the state before the first request -/

/-- Settles O16: the response is `eval` of the request in a step and `respond` of the operation in `exec`. -/
theorem noEvaluationFaultsOrRefuses : Obligations.NoEvaluationFaultsOrRefuses := by
  refine ⟨?_, fun i s => ⟨respond i, exec_eq i s⟩, nofun⟩
  rintro ⟨_ | ⟨r, rs⟩, ps⟩ hne
  · exact absurd rfl hne
  · exact ⟨eval r, step_cons r rs ps⟩

/-- Settles O19: both lists are empty at reset, and a run with nothing waiting stays there. -/
theorem resetHoldsNoResponse : Obligations.ResetHoldsNoResponse :=
  ⟨State.reset_requests, State.reset_responses, fun n => run_nil n []⟩

/-! ### Chains on the machine -/

/-- R52: a chain makes one request for each pair of bytes. -/
@[simp] theorem length_chainRequests (op : Op) (m : Mode) (c : Bool) (ps : List (Byte × Byte)) :
    (chainRequests op m c ps).length = ps.length := by
  rw [← length_chain op m c ps, ← map_eval_chainRequests, List.length_map]

/-- R119: the first request of a chain has the carry-in that the caller begins with. -/
theorem chainRequests_head_cin {op : Op} {m : Mode} {c : Bool} {ps : List (Byte × Byte)} {q : Request}
    (h : (chainRequests op m c ps)[0]? = some q) : q.cin = c := by
  cases ps with
  | nil => simp [chainRequests] at h
  | cons p ps =>
    obtain rfl : (⟨op, m, c, p.1, p.2⟩ : Request) = q := by simpa [chainRequests] using h
    rfl

/-- R30, R119: the carry-in of each later request of a chain is the C of the evaluation before it. -/
theorem chainRequests_succ_cin {op : Op} {m : Mode} {c : Bool} {ps : List (Byte × Byte)} {k : Nat} {r q : Request}
    (hr : (chainRequests op m c ps)[k]? = some r) (hq : (chainRequests op m c ps)[k + 1]? = some q) :
    q.cin = (eval r).C := by
  induction ps generalizing c k with
  | nil => simp [chainRequests] at hr
  | cons p ps ih =>
    cases k with
    | zero =>
      obtain rfl : (⟨op, m, c, p.1, p.2⟩ : Request) = r := by simpa [chainRequests] using hr
      exact chainRequests_head_cin hq
    | succ k => exact ih hr hq

/-- Settles O56: the run answers the chain's requests in order, and the responses of those are the chain's. -/
theorem chainRunsOnTheMachine : Obligations.ChainRunsOnTheMachine := by
  intro op m c ps before
  refine ⟨?_, fun k r q => chainRequests_succ_cin⟩
  have hrun := run_length_add 0 (chainRequests op m c ps) before
  rw [Nat.add_zero, length_chainRequests, map_eval_chainRequests] at hrun
  exact hrun

end Sys2Proof.Proofs
end

section
/-! PROOFS. Memory: every order of the requests gives the same responses, and chains add and subtract n-byte numbers. -/

namespace Sys2Proof.Proofs

open Sys2Proof Sys2Proof.Machine

/-! ### Every order of the requests -/

/-- R145: as many steps as requests are waiting answer them all. -/
theorem run_length (rs : List Request) (ps : List Response) :
    Host.Core.run core rs.length (⟨rs, ps⟩ : State) = .next (⟨[], ps ++ rs.map eval⟩ : State) :=
  (runAnswersEveryRequest ⟨rs, ps⟩).1

/-- Settles O18: a run pairs each request with its own `eval`, wherever it stands in the order. -/
theorem orderOfRequestsDoesNotMatter : Obligations.OrderOfRequestsDoesNotMatter := by
  intro rs rs' hperm
  have hpairs (qs : List Request) : qs.zip (qs.map eval) = qs.map fun q => (q, eval q) :=
    List.map_prod_left_eq_zip.symm
  refine ⟨rs.map eval, rs'.map eval, run_length rs [], ?_, List.length_map _, ?_, ?_⟩
  · rw [hperm.length_eq]
    exact run_length rs' []
  · rw [hpairs, hpairs]
    exact hperm.map _
  · intro q hq
    rw [hpairs] at hq
    obtain ⟨r, -, rfl⟩ := List.mem_map.1 hq
    exact run_length [r] []

/-! ### Numbers from their digits -/

/-- R119: a number from its bytes, the least significant first, each read as a digit of the base. -/
def digitsValue (base : Nat) (digit : Byte → Nat) : List Byte → Nat
  | []      => 0
  | x :: xs => digit x + base * digitsValue base digit xs

theorem bytesValue_eq_digitsValue (xs : List Byte) : bytesValue xs = digitsValue 256 BitVec.toNat xs := by
  induction xs with
  | nil => rfl
  | cons x xs ih => rw [bytesValue, digitsValue, ih]

theorem decimalValue_eq_digitsValue (xs : List Byte) : decimalValue xs = digitsValue 100 dec xs := by
  induction xs with
  | nil => rfl
  | cons x xs ih => rw [decimalValue, digitsValue, ih]

/-- A number and the number of the complements of its digits are together one less than the power of the base. -/
theorem digitsValue_complement_add {base : Nat} {digit : Byte → Nat} {xs : List Byte}
    (hlt : ∀ x ∈ xs, digit x < base) :
    digitsValue base (fun x => base - 1 - digit x) xs + digitsValue base digit xs + 1 = base ^ xs.length := by
  induction xs with
  | nil => rfl
  | cons x xs ih =>
    obtain ⟨hx, hxs⟩ := List.forall_mem_cons.1 hlt
    have hdigit : base - 1 - digit x + digit x + 1 = base := by omega
    rw [List.length_cons, pow_succ, ← ih hxs]
    simp only [digitsValue]
    linarith

/-- n digits below the base make a number below its n-th power. -/
theorem digitsValue_lt {base : Nat} {digit : Byte → Nat} {xs : List Byte} (hlt : ∀ x ∈ xs, digit x < base) :
    digitsValue base digit xs < base ^ xs.length := by
  have := digitsValue_complement_add hlt
  omega

/-! ### A chain of one-digit adders adds numbers -/

/-- The carry that a chain leaves: the C of its last response, or the first carry-in where there is none. -/
def finalCarry : Bool → List Response → Bool
  | c, []      => c
  | _, r :: rs => finalCarry r.C rs

theorem finalCarry_eq_of_getLast? {rs : List Response} {r : Response} (h : rs.getLast? = some r) (c : Bool) :
    finalCarry c rs = r.C := by
  induction rs generalizing c with
  | nil => simp at h
  | cons q rs ih =>
    cases rs with
    | nil =>
      obtain rfl : q = r := by simpa using h
      rfl
    | cons p rs => exact ih (by simpa using h) q.C

/-- R108, R109, R118: one evaluation adds a digit of `a`, a term from `operand` and the carry-in, and loses nothing:
the digit of the result and the carry are their sum. For Subtract the term is the complement of a digit (R112). -/
structure DigitAdder (op : Op) (m : Mode) (base : Nat) (valid : Byte → Prop) (digit term : Byte → Nat) : Prop where
  digit_lt : ∀ x, valid x → digit x < base
  valid_result : ∀ x y c, valid x → valid y → valid (eval ⟨op, m, c, x, y⟩).result
  conserves : ∀ x y c, valid x → valid y →
    digit (eval ⟨op, m, c, x, y⟩).result + base * (eval ⟨op, m, c, x, y⟩).C.toNat = digit x + term y + c.toNat

namespace DigitAdder

variable {op : Op} {m : Mode} {base : Nat} {valid : Byte → Prop} {digit term : Byte → Nat} {ps : List (Byte × Byte)}

theorem valid_chain (h : DigitAdder op m base valid digit term) (hps : ∀ p ∈ ps, valid p.1 ∧ valid p.2) (c : Bool) :
    ∀ r ∈ chain op m c ps, valid r.result := by
  induction ps generalizing c with
  | nil => simp
  | cons p ps ih =>
    obtain ⟨hp, hps⟩ := List.forall_mem_cons.1 hps
    rw [chain_cons, List.forall_mem_cons]
    exact ⟨h.valid_result p.1 p.2 c hp.1 hp.2, ih hps _⟩

/-- The digits of a chain's results and its last carry are the whole sum. -/
theorem chain_conserves (h : DigitAdder op m base valid digit term) (hps : ∀ p ∈ ps, valid p.1 ∧ valid p.2)
    (c : Bool) :
    digitsValue base digit ((chain op m c ps).map Response.result) +
        base ^ ps.length * (finalCarry c (chain op m c ps)).toNat =
      digitsValue base digit (ps.map Prod.fst) + digitsValue base term (ps.map Prod.snd) + c.toNat := by
  induction ps generalizing c with
  | nil => simp [digitsValue, finalCarry]
  | cons p ps ih =>
    obtain ⟨x, y⟩ := p
    obtain ⟨⟨hx, hy⟩, hps⟩ := List.forall_mem_cons.1 hps
    have hfirst := h.conserves x y c hx hy
    have hrest := congrArg (base * ·) (ih hps (eval ⟨op, m, c, x, y⟩).C)
    simp only [chain_cons, List.map_cons, List.length_cons, pow_succ, digitsValue, finalCarry] at hrest ⊢
    linarith

/-- The results of a chain are the sum below the power of the base, and the last C says that it went beyond. -/
theorem chain_adds (h : DigitAdder op m base valid digit term) (hps : ∀ p ∈ ps, valid p.1 ∧ valid p.2) (c : Bool)
    {total : Nat}
    (htotal : digitsValue base digit (ps.map Prod.fst) + digitsValue base term (ps.map Prod.snd) + c.toNat = total) :
    digitsValue base digit ((chain op m c ps).map Response.result) = total % base ^ ps.length ∧
      ∀ r, (chain op m c ps).getLast? = some r → r.C = decide (total ≥ base ^ ps.length) := by
  have hsum := (h.chain_conserves hps c).trans htotal
  have hlt : digitsValue base digit ((chain op m c ps).map Response.result) < base ^ ps.length := by
    have := digitsValue_lt (List.forall_mem_map.2 fun r hr => h.digit_lt _ (h.valid_chain hps c r hr))
    simpa using this
  refine ⟨?_, fun r hr => ?_⟩
  · rw [← hsum, Nat.add_mul_mod_self_left, Nat.mod_eq_of_lt hlt]
  · rw [finalCarry_eq_of_getLast? hr c] at hsum
    cases hC : r.C <;> simp [hC] at hsum ⊢ <;> omega

/-- R112: where the term is the complement of the digit, a chain with first carry-in 1 subtracts. -/
theorem chain_subtracts (h : DigitAdder op m base valid digit fun y => base - 1 - digit y)
    (hps : ∀ p ∈ ps, valid p.1 ∧ valid p.2) :
    (digitsValue base digit ((chain op m true ps).map Response.result) : Int) =
        ((digitsValue base digit (ps.map Prod.fst) : Int) - digitsValue base digit (ps.map Prod.snd)) %
          (base : Int) ^ ps.length ∧
      ∀ r, (chain op m true ps).getLast? = some r →
        r.C = decide (digitsValue base digit (ps.map Prod.fst) ≥ digitsValue base digit (ps.map Prod.snd)) := by
  have hcomplement := digitsValue_complement_add (xs := ps.map Prod.snd)
    (List.forall_mem_map.2 fun p hp => h.digit_lt p.2 (hps p hp).2)
  rw [List.length_map] at hcomplement
  obtain ⟨hresult, hcarry⟩ := h.chain_adds hps true rfl
  rw [Bool.toNat_true, ← hcomplement] at hcarry
  refine ⟨?_, fun r hr => ?_⟩
  · rw [hresult, Int.natCast_mod, Nat.cast_pow, ← Int.add_emod_right (_ - _), ← Nat.cast_pow, Bool.toNat_true]
    congr 1
    omega
  · rw [hcarry r hr, decide_eq_decide]
    omega

end DigitAdder

/-! ### Each operation is a one-digit adder -/

theorem toNat_decide (p : Prop) [Decidable p] : (decide p).toNat = if p then 1 else 0 := Bool.cond_decide p 1 0

/-- R108: the result and the carry of `ADD.BIN` are the sum. -/
theorem addBinResponse_conserves (x y : Byte) (c : Bool) :
    (addBinResponse x y c).result.toNat + 256 * (addBinResponse x y c).C.toNat = x.toNat + y.toNat + c.toNat := by
  have hresult : ((addBinResponse x y c).result.toNat : Int) = addBinWide x y c % 256 := truncate_toNat _
  have hcarry : (addBinResponse x y c).C.toNat = if addBinWide x y c > 0xFF then 1 else 0 := toNat_decide _
  have := c.toNat_le
  simp only [addBinWide, carryNumber_eq] at hresult hcarry
  split at hcarry <;> omega

/-- R109, R112: the result and the carry of `SUB.BIN` are the sum with the complement of the operand. -/
theorem subBinResponse_conserves (x y : Byte) (c : Bool) :
    (subBinResponse x y c).result.toNat + 256 * (subBinResponse x y c).C.toNat =
      x.toNat + (256 - 1 - y.toNat) + c.toNat := by
  have hresult : ((subBinResponse x y c).result.toNat : Int) = subWide0 x y c % 256 := truncate_toNat _
  have hcarry : (subBinResponse x y c).C.toNat = if subWide0 x y c ≥ 0 then 1 else 0 := toNat_decide _
  have := c.toNat_le
  simp only [subWide0, carryNumber_eq] at hresult hcarry
  split at hcarry <;> omega

/-- R80 (1), (3), (7): the low digits of `ADD.DEC`, with the half carry as their carry. -/
theorem addDec_lowDigit_conserves {x y : Byte} (hx : validBcd x = true) (hy : validBcd y = true) (c : Bool) :
    addDecLowCorrected x y c % 16 ≤ 9 ∧
      addDecLowCorrected x y c % 16 + 10 * (addDecHalfCarry x y c).toNat = x.toNat % 16 + y.toNat % 16 + c.toNat := by
  rw [validBcd_iff] at hx hy
  have := c.toNat_le
  simp only [addDecLowCorrected, addDecHalfCarry, toNat_decide, decide_eq_true_eq, addDecLow_eq, carryNumber_eq]
  split <;> omega

/-- R80 (2), (5), (6), (7): the high digits of `ADD.DEC`, with the half carry as carry-in and C as their carry. -/
theorem addDec_highDigit_conserves {x y : Byte} (hx : validBcd x = true) (hy : validBcd y = true) (c : Bool) :
    addDecHighCorrected x y c / 16 % 16 ≤ 9 ∧
      addDecHighCorrected x y c / 16 % 16 + 10 * (addDecResponse x y c).C.toNat =
        x.toNat / 16 + y.toNat / 16 + (addDecHalfCarry x y c).toNat := by
  rw [validBcd_iff] at hx hy
  have hcarry : (addDecResponse x y c).C.toNat = if addDecHighCorrected x y c > 0xFF then 1 else 0 := toNat_decide _
  have hhigh : addDecHighAtV x y c = 16 * (x.toNat / 16 + y.toNat / 16 + (addDecHalfCarry x y c).toNat) := by
    simp only [addDecHighAtV, addDecHigh_eq]
    cases addDecHalfCarry x y c <;> simp [Nat.mul_add]
  have := (addDecHalfCarry x y c).toNat_le
  simp only [hcarry, addDecHighCorrected, hhigh]
  split <;> split <;> omega

/-- A byte made of two decimal digits is valid packed BCD, and is read as those digits. -/
theorem validBcd_and_dec_of_digits {x : Byte} {hi lo : Nat} (hx : x.toNat = hi * 16 + lo) (hhi : hi ≤ 9)
    (hlo : lo ≤ 9) : validBcd x = true ∧ dec x = 10 * hi + lo := by
  rw [validBcd_iff, dec]
  omega

/-- R86: on valid packed BCD, `ADD.DEC` adds the two digits of its operands. -/
theorem addDecResponse_conserves {x y : Byte} (hx : validBcd x = true) (hy : validBcd y = true) (c : Bool) :
    validBcd (addDecResponse x y c).result = true ∧
      dec (addDecResponse x y c).result + 100 * (addDecResponse x y c).C.toNat = dec x + dec y + c.toNat := by
  obtain ⟨hlo, hlow⟩ := addDec_lowDigit_conserves hx hy c
  obtain ⟨hhi, hhigh⟩ := addDec_highDigit_conserves hx hy c
  obtain ⟨hvalid, hdec⟩ := validBcd_and_dec_of_digits (addDecResult_toNat x y c) hhi hlo
  refine ⟨hvalid, ?_⟩
  have hresult : dec (addDecResponse x y c).result = _ := hdec
  rw [hresult, dec, dec]
  omega

/-- R99, R112: on valid packed BCD, `SUB.DEC` adds the nines' complement of the digits of its operand. -/
theorem subDecResponse_conserves {x y : Byte} (hx : validBcd x = true) (hy : validBcd y = true) (c : Bool) :
    validBcd (subDecResponse x y c).result = true ∧
      dec (subDecResponse x y c).result + 100 * (subDecResponse x y c).C.toNat =
        dec x + (100 - 1 - dec y) + c.toNat := by
  have hresult : ((subDecResponse x y c).result.toNat : Int) = subDecWide x y c % 256 := truncate_toNat _
  have hcarry : (subDecResponse x y c).C.toNat = if subWide0 x y c ≥ 0 then 1 else 0 := toNat_decide _
  have := c.toNat_le
  rw [validBcd_iff] at hx hy ⊢
  simp only [subDecWide, subWide0, subDecLowProbe_eq, carryNumber_eq] at hresult hcarry
  simp only [dec]
  split at hcarry <;> split_ifs at hresult <;> omega

theorem digitAdder_addBin : DigitAdder .add .binary 256 (fun _ => True) BitVec.toNat BitVec.toNat where
  digit_lt x _ := x.isLt
  valid_result _ _ _ _ _ := trivial
  conserves x y c _ _ := addBinResponse_conserves x y c

theorem digitAdder_subBin :
    DigitAdder .subtract .binary 256 (fun _ => True) BitVec.toNat (fun y => 256 - 1 - y.toNat) where
  digit_lt x _ := x.isLt
  valid_result _ _ _ _ _ := trivial
  conserves x y c _ _ := subBinResponse_conserves x y c

theorem digitAdder_addDec : DigitAdder .add .decimal 100 (fun x => validBcd x = true) dec dec where
  digit_lt _ hx := dec_lt_of_validBcd hx
  valid_result _ _ c hx hy := (addDecResponse_conserves hx hy c).1
  conserves _ _ c hx hy := (addDecResponse_conserves hx hy c).2

theorem digitAdder_subDec :
    DigitAdder .subtract .decimal 100 (fun x => validBcd x = true) dec (fun y => 100 - 1 - dec y) where
  digit_lt _ hx := dec_lt_of_validBcd hx
  valid_result _ _ c hx hy := (subDecResponse_conserves hx hy c).1
  conserves _ _ c hx hy := (subDecResponse_conserves hx hy c).2

/-! ### The chains of the four operations -/

/-- Settles O50: `ADD.BIN` is an adder of digits of base 256, and a chain of such adders adds. -/
theorem addBinChainAddsNumbers : Obligations.AddBinChainAddsNumbers := by
  intro ps
  simp only [bytesValue_eq_digitsValue]
  exact ⟨length_chain .., digitAdder_addBin.chain_adds (fun _ _ => ⟨trivial, trivial⟩) false rfl⟩

/-- Settles O51: `SUB.BIN` adds the complement of the operand's digit of base 256, so its chain subtracts. -/
theorem subBinChainSubtractsNumbers : Obligations.SubBinChainSubtractsNumbers := by
  intro ps
  simp only [bytesValue_eq_digitsValue]
  exact ⟨length_chain .., digitAdder_subBin.chain_subtracts fun _ _ => ⟨trivial, trivial⟩⟩

/-- Settles O52: on valid packed BCD, `ADD.DEC` is an adder of digits of base 100. -/
theorem addDecChainAddsDecimals : Obligations.AddDecChainAddsDecimals := by
  intro ps hps
  simp only [decimalValue_eq_digitsValue]
  exact ⟨length_chain .., digitAdder_addDec.valid_chain hps false, digitAdder_addDec.chain_adds hps false rfl⟩

/-- Settles O53: on valid packed BCD, `SUB.DEC` adds the complement of the operand's digit of base 100. -/
theorem subDecChainSubtractsDecimals : Obligations.SubDecChainSubtractsDecimals := by
  intro ps hps
  simp only [decimalValue_eq_digitsValue]
  exact ⟨length_chain .., digitAdder_subDec.valid_chain hps true, digitAdder_subDec.chain_subtracts hps⟩

end Sys2Proof.Proofs
end

section
/-! PROOFS. Encoding: words and numbers are requests, a call is accepted or refused at the boundary, a text denotes one
operation, and the lines of a program name earlier outputs. -/

namespace Sys2Proof.Proofs

open Sys2Proof Sys2Proof.Machine

/-! ### Words put together from parts -/

/-- A word put together from two is a number in base `2 ^ n`. -/
theorem toNat_append_eq_add {m n : Nat} (x : BitVec m) (y : BitVec n) :
    (x ++ y).toNat = x.toNat * 2 ^ n + y.toNat := by
  rw [BitVec.toNat_append, Nat.shiftLeft_eq, Nat.mul_comm, Nat.two_pow_add_eq_or_of_lt y.isLt]

/-- One bit as a word is the part of length 1. -/
theorem ofBool_getLsbD_eq_extractLsb' {n : Nat} (w : BitVec n) (i : Nat) :
    BitVec.ofBool (w.getLsbD i) = w.extractLsb' i 1 := by
  ext j hj
  obtain rfl : j = 0 := by omega
  simp

/-! ### The request word (R57) -/

/-- R57: the three upper bits are `op`, `mode` and `cin`. -/
theorem wordOfRequest_getLsbD (r : Request) :
    (wordOfRequest r).getLsbD 18 = opBit r.op ∧ (wordOfRequest r).getLsbD 17 = modeBit r.mode ∧
      (wordOfRequest r).getLsbD 16 = r.cin := by
  simp only [wordOfRequest, BitVec.getLsbD_append, Nat.reduceLT, Nat.reduceSub, reduceIte, BitVec.getLsbD_ofBool,
    decide_true, Bool.true_and, and_self]

@[simp] theorem wordOfRequest_extractLsb'_a (r : Request) : (wordOfRequest r).extractLsb' 8 8 = r.a := by
  rw [wordOfRequest, BitVec.extractLsb'_append_eq_of_le (Nat.le_refl 8)]
  exact BitVec.extractLsb'_append_eq_right

@[simp] theorem wordOfRequest_extractLsb'_operand (r : Request) : (wordOfRequest r).extractLsb' 0 8 = r.operand :=
  BitVec.extractLsb'_append_eq_right

/-- R57: the request word as a number, each port at its weight. -/
theorem wordOfRequest_toNat (r : Request) :
    (wordOfRequest r).toNat =
      (opBit r.op).toNat * 2 ^ 18 + (modeBit r.mode).toNat * 2 ^ 17 + r.cin.toNat * 2 ^ 16 + r.a.toNat * 256 +
        r.operand.toNat := by
  simp only [wordOfRequest, toNat_append_eq_add, BitVec.toNat_ofBool]
  omega

/-- R56, R57: packing the five ports loses none of them. -/
@[simp] theorem requestOfWord_wordOfRequest (r : Request) : requestOfWord (wordOfRequest r) = r := by
  simp only [requestOfWord, wordOfRequest_getLsbD, wordOfRequest_extractLsb'_a, wordOfRequest_extractLsb'_operand,
    opOfBit_opBit, modeOfBit_modeBit]

/-- R61: unpacking a word loses no bit of it. -/
@[simp] theorem wordOfRequest_requestOfWord (w : ReqWord) : wordOfRequest (requestOfWord w) = w := by
  simp only [wordOfRequest, requestOfWord, opBit_opOfBit, modeBit_modeOfBit, ofBool_getLsbD_eq_extractLsb']
  rw [BitVec.extractLsb'_append_extractLsb'_eq_extractLsb' (by rfl),
    BitVec.extractLsb'_append_extractLsb'_eq_extractLsb' (by rfl),
    BitVec.extractLsb'_append_extractLsb'_eq_extractLsb' (by rfl),
    BitVec.extractLsb'_append_extractLsb'_eq_extractLsb' (by rfl)]
  exact BitVec.extractLsb'_eq_self

/-! ### The operation of a word (R59) -/

@[simp] theorem decode_encode (i : Instr) : decode (encode i) = i := by
  simp [decode, encode]

@[simp] theorem encode_decode (w : ReqWord) : encode (decode w) = w := by
  simp [decode, encode]

/-- R59: the two bits above the operands are `op` and `mode`, and they select the operation. -/
theorem decode_of_selector {w : ReqWord} {sel : BitVec 2} (h : w.extractLsb' 17 2 = sel) :
    decode w = instrOfRequest ⟨opOfBit (sel.getLsbD 1), modeOfBit (sel.getLsbD 0), w.getLsbD 16,
      w.extractLsb' 8 8, w.extractLsb' 0 8⟩ := by
  have hop : w.getLsbD 18 = sel.getLsbD 1 := by simp [← h]
  have hmode : w.getLsbD 17 = sel.getLsbD 0 := by simp [← h]
  rw [decode, requestOfWord, hop, hmode]

/-! ### Numbers wider than a word (R63) -/

/-- R57, R63: a number below 2^19 is the request of its 19-bit word. -/
theorem requestOfNumber_of_lt {w : Nat} (h : w < 2 ^ 19) :
    requestOfNumber w = .ok (requestOfWord (BitVec.ofNat 19 w)) := by
  have hbit (i : Nat) (hi : i < 19) : (BitVec.ofNat 19 w).getLsbD i = (w / 2 ^ i % 2 == 1) := by
    rw [BitVec.getLsbD_ofNat, decide_eq_true hi, Bool.true_and, ← bit_eq_testBit, bit]
  have hop : w / 2 ^ 18 % 2 = w / 2 ^ 18 := by omega
  have hbyte (i : Nat) : BitVec.ofNat 8 (w / 2 ^ i % 2 ^ 8) = (BitVec.ofNat 19 w).extractLsb' i 8 := by
    apply BitVec.eq_of_toNat_eq
    simp only [BitVec.toNat_ofNat, BitVec.extractLsb'_toNat, Nat.shiftRight_eq_div_pow, Nat.mod_eq_of_lt h,
      Nat.mod_mod]
  rw [requestOfNumber, requestOfCall_eq, if_pos ((callOfNumber_wellFormed w).2 h), requestOfWord, hbit 18 (by decide),
    hbit 17 (by decide), hbit 16 (by decide), hop, ← hbyte 8, ← hbyte 0, pow_zero, Nat.div_one]
  rfl

theorem decodeNumber_of_lt {w : Nat} (h : w < 2 ^ 19) : decodeNumber w = .ok (decode (BitVec.ofNat 19 w)) := by
  rw [decodeNumber, requestOfNumber_of_lt h, decode]

theorem decodeNumber_of_le {w : Nat} (h : 2 ^ 19 ≤ w) : decodeNumber w = .error .contractViolation := by
  have hbad : ¬ (callOfNumber w).wellFormed = true := by
    rw [callOfNumber_wellFormed]
    exact Nat.not_lt.2 h
  rw [decodeNumber, requestOfNumber, requestOfCall_eq, if_neg hbad]

theorem decodeTableWord_of_lt (nbits : Nat) {w : Nat} (h : w < 2 ^ 19) :
    decodeTableWord nbits w = some (decode (BitVec.ofNat 19 w)) := by
  rw [decodeTableWord, decodeNumber_of_lt h]

theorem decodeTableWord_of_le (nbits : Nat) {w : Nat} (h : 2 ^ 19 ≤ w) : decodeTableWord nbits w = none := by
  rw [decodeTableWord, decodeNumber_of_le h]

/-! ### The statements about request words -/

/-- R62: an operation has exactly the ports' types, so it is well-formed. -/
theorem instr_wellFormed (i : Instr) : i.wellFormed = true := by
  cases i with
  | addBin a v c => exact Laws.WellFormed.addBin a v c
  | addDec a v c => exact Laws.WellFormed.addDec a v c
  | subBin a v c => exact Laws.WellFormed.subBin a v c
  | subDec a v c => exact Laws.WellFormed.subDec a v c

/-- Settles O4: packing loses none of the ports, and a word read as a number is below 2^19. -/
theorem decodeOfEncodeIsTheInstruction : Obligations.DecodeOfEncodeIsTheInstruction := by
  intro i
  refine ⟨instr_wellFormed i, decode_encode i, ?_⟩
  rw [decodeTableWord_of_lt 24 (encode i).isLt, BitVec.ofNat_toNat, BitVec.setWidth_eq, decode_encode]

/-- Settles O2: each of the four values of the two selecting bits is the pair of codes of one operation. -/
theorem decodeSelectsByOpAndModeBits : Obligations.DecodeSelectsByOpAndModeBits := fun _ =>
  ⟨decode_of_selector, decode_of_selector, decode_of_selector, decode_of_selector⟩

/-- Settles O3: the bits are those of the parts put together, and the digits follow from the number. -/
theorem requestWordLayout : Obligations.RequestWordLayout := by
  intro r op mode w
  have hop : opBit r.op = decide (op = 1) ∧ (opBit r.op).toNat = op := by
    obtain ⟨_ | _, m, c, a, v⟩ := r <;> exact ⟨rfl, rfl⟩
  have hmode : modeBit r.mode = decide (mode = 1) ∧ (modeBit r.mode).toNat = mode := by
    obtain ⟨o, _ | _, c, a, v⟩ := r <;> exact ⟨rfl, rfl⟩
  have hw : w.toNat = (opBit r.op).toNat * 2 ^ 18 + (modeBit r.mode).toNat * 2 ^ 17 + r.cin.toNat * 2 ^ 16 +
      r.a.toNat * 256 + r.operand.toNat := wordOfRequest_toNat r
  have hop1 := Bool.toNat_le (opBit r.op)
  have hmode1 := Bool.toNat_le (modeBit r.mode)
  have hcin1 := Bool.toNat_le r.cin
  rw [hop.2] at hw hop1
  rw [hmode.2] at hw hmode1
  have ha : w.extractLsb' 8 8 = r.a := wordOfRequest_extractLsb'_a r
  have hv : w.extractLsb' 0 8 = r.operand := wordOfRequest_extractLsb'_operand r
  obtain ⟨h18, h17, h16⟩ := wordOfRequest_getLsbD r
  refine ⟨h18.trans hop.1, h17.trans hmode.1, h16, ha, hv, ?_, ?_, hw, ?_, ?_, ?_, ?_⟩
  · simp [← ha]
  · simp [← hv]
  all_goals omega

/-- Settles O5: both round trips put back the same five ports. -/
theorem encodeOfDecodeIsTheWord : Obligations.EncodeOfDecodeIsTheWord :=
  ⟨encode_decode, requestOfWord_wordOfRequest⟩

/-- Settles O6: the ports of a number lie in their domains exactly when it is below 2^19. -/
theorem numbersOutsideTheRequestWordAreRejected : Obligations.NumbersOutsideTheRequestWordAreRejected := fun nbits _ =>
  ⟨decodeTableWord_of_lt nbits, fun h => ⟨decodeTableWord_of_le nbits h, decodeNumber_of_le h⟩⟩

/-- Settles O1: the two upper bits of each word are the codes of its operation. -/
theorem decodeReadsWrittenOutWords : Obligations.DecodeReadsWrittenOutWords :=
  ⟨decode_of_selector (sel := 0b00#2) rfl, decode_of_selector (sel := 0b01#2) rfl,
    decode_of_selector (sel := 0b10#2) rfl, decode_of_selector (sel := 0b11#2) rfl⟩

/-! ### The boundary of a caller with wider types (R63) -/

/-- R63: a call in its domains is the request with exactly those port values. -/
theorem requestOfCall_of_domains {c : Call}
    (h : c.op < 2 ∧ c.mode < 2 ∧ c.cin < 2 ∧ c.a < 256 ∧ c.operand < 256) :
    ∃ r : Request, requestOfCall c = .ok r ∧ (r.op = if c.op = 0 then .add else .subtract) ∧
      (r.mode = if c.mode = 0 then .binary else .decimal) ∧ r.cin = decide (c.cin = 1) ∧
      r.a.toNat = c.a ∧ r.operand.toNat = c.operand := by
  have hok := (requestOfCall_eq c).trans (if_pos ((wellFormed_iff c).2 h))
  obtain ⟨hop, hmode, -, ha, hv⟩ := h
  refine ⟨_, hok, ?_, ?_, Bool.beq_eq_decide_eq _ _, (BitVec.toNat_ofNat _ _).trans (Nat.mod_eq_of_lt ha),
    (BitVec.toNat_ofNat _ _).trans (Nat.mod_eq_of_lt hv)⟩
  · obtain h0 | h1 : c.op = 0 ∨ c.op = 1 := by omega
    · simp [h0, opOfBit]
    · simp [h1, opOfBit]
  · obtain h0 | h1 : c.mode = 0 ∨ c.mode = 1 := by omega
    · simp [h0, modeOfBit]
    · simp [h1, modeOfBit]

/-- R63: a call outside the domains is rejected. -/
theorem requestOfCall_of_not_domains {c : Call}
    (h : ¬ (c.op < 2 ∧ c.mode < 2 ∧ c.cin < 2 ∧ c.a < 256 ∧ c.operand < 256)) :
    requestOfCall c = .error .contractViolation :=
  (requestOfCall_eq c).trans (if_neg (mt (wellFormed_iff c).1 h))

theorem present_of_ok {c : Call} {r : Request} (h : requestOfCall c = .ok r) (s : State) :
    present c s = .next (enqueue r s) := by
  rw [present, h]

theorem present_of_error {c : Call} {e : DecodeReject} (h : requestOfCall c = .error e) (s : State) :
    present c s = .refused .contractViolation := by
  rw [present, h]

/-- Settles O7: whether a call is accepted is whether it lies in the ports' domains. -/
theorem boundaryRefusesContractViolations : Obligations.BoundaryRefusesContractViolations := by
  intro call s
  constructor
  · intro h
    obtain ⟨r, hok, hports⟩ := requestOfCall_of_domains h
    exact ⟨⟨_, present_of_ok hok s⟩, r, hok, hports⟩
  · exact fun h => present_of_error (requestOfCall_of_not_domains h) s

/-- Settles O8: the request of the call waits last, and is the next one where none waited before. -/
theorem presentedCallIsAnsweredInTurn : Obligations.PresentedCallIsAnsweredInTurn := by
  rintro call r ⟨rs, ps⟩ hok
  refine ⟨present_of_ok hok _, ?_⟩
  rintro rfl
  exact ⟨_, present_of_ok hok _, step_cons r [] ps⟩

/-- Settles O22: a request that waits last is the last of those presented, and none has been answered meanwhile. -/
theorem presentKeepsAnswers : Obligations.PresentKeepsAnswers := by
  intro before presented s call hs
  obtain ⟨done, hpresented, hresponses⟩ := hs
  refine ⟨fun r hok => ⟨enqueue r s, present_of_ok hok s, ⟨done, ?_, hresponses⟩, rfl⟩,
    fun e herror => present_of_error herror s⟩
  rw [hpresented, enqueue_requests, List.append_assoc]

/-! ### The response word (R58) -/

/-- R58: the four upper bits are the flags. -/
theorem wordOfResponse_getLsbD (r : Response) :
    (wordOfResponse r).getLsbD 11 = r.N ∧ (wordOfResponse r).getLsbD 10 = r.V ∧
      (wordOfResponse r).getLsbD 9 = r.Z ∧ (wordOfResponse r).getLsbD 8 = r.C := by
  simp only [wordOfResponse, BitVec.getLsbD_append, Nat.reduceLT, Nat.reduceSub, reduceIte, BitVec.getLsbD_ofBool,
    decide_true, Bool.true_and, and_self]

@[simp] theorem wordOfResponse_extractLsb'_result (r : Response) : (wordOfResponse r).extractLsb' 0 8 = r.result :=
  BitVec.extractLsb'_append_eq_right

/-- R58: `flags` is the upper four bits, the four flags put together. -/
theorem flagBits_eq (r : Response) :
    flagBits r = BitVec.ofBool r.N ++ BitVec.ofBool r.V ++ BitVec.ofBool r.Z ++ BitVec.ofBool r.C :=
  BitVec.extractLsb'_append_eq_left

/-- R58: the four flags as a number, N the most significant. -/
theorem flagBits_toNat (r : Response) :
    (flagBits r).toNat = 8 * r.N.toNat + 4 * r.V.toNat + 2 * r.Z.toNat + r.C.toNat := by
  simp only [flagBits_eq, toNat_append_eq_add, BitVec.toNat_ofBool]
  omega

/-- R58: the response word as a number, `flags` above `result`. -/
theorem wordOfResponse_toNat (r : Response) :
    (wordOfResponse r).toNat = (flagBits r).toNat * 2 ^ 8 + r.result.toNat := by
  rw [flagBits_eq]
  exact toNat_append_eq_add _ _

theorem responseOfWord_wordOfResponse (r : Response) : responseOfWord (wordOfResponse r) = r := by
  simp only [responseOfWord, wordOfResponse_getLsbD, wordOfResponse_extractLsb'_result]

theorem wordOfResponse_responseOfWord (w : RspWord) : wordOfResponse (responseOfWord w) = w := by
  simp only [wordOfResponse, responseOfWord, ofBool_getLsbD_eq_extractLsb']
  rw [BitVec.extractLsb'_append_extractLsb'_eq_extractLsb' (by rfl),
    BitVec.extractLsb'_append_extractLsb'_eq_extractLsb' (by rfl),
    BitVec.extractLsb'_append_extractLsb'_eq_extractLsb' (by rfl),
    BitVec.extractLsb'_append_extractLsb'_eq_extractLsb' (by rfl)]
  exact BitVec.extractLsb'_eq_self

/-- Settles O9: the bits are those of the parts put together, and `flags` is what lies above the result. -/
theorem responseWordLayout : Obligations.ResponseWordLayout := by
  intro r w
  have hw : w.toNat = (flagBits r).toNat * 2 ^ 8 + r.result.toNat := wordOfResponse_toNat r
  have hflags := flagBits_toNat r
  obtain ⟨hN, hV, hZ, hC⟩ := wordOfResponse_getLsbD r
  refine ⟨hN, hV, hZ, hC, wordOfResponse_extractLsb'_result r, rfl, hflags, ?_, ?_⟩
  · rw [hw, hflags]
    ring
  · omega

/-- Settles O10: packing puts each output port at its bits, and unpacking reads it there. -/
theorem responseWordRoundTrip : Obligations.ResponseWordRoundTrip :=
  ⟨responseOfWord_wordOfResponse, wordOfResponse_responseOfWord⟩

/-! ### Texts (R65) -/

/-- The characters of the digits are those from `0` up to nine, and those from `A` above. -/
theorem hexDigit_toNat {n : Nat} (h : n < 16) : (hexDigit n).toNat = if n < 10 then 48 + n else 55 + n := by
  unfold hexDigit
  split
  · exact (Char.toNat_ofNat _).trans (if_pos (.inl (by omega)))
  · exact (Char.toNat_ofNat _).trans (if_pos (.inl (by omega)))

theorem hexDigit_inj {m n : Nat} (hm : m < 16) (hn : n < 16) (h : hexDigit m = hexDigit n) : m = n := by
  have hchar := congrArg Char.toNat h
  rw [hexDigit_toNat hm, hexDigit_toNat hn] at hchar
  split at hchar <;> split at hchar <;> omega

theorem byteText_inj {x y : Byte} (h : byteText x = byteText y) : x = y := by
  simp only [byteText, List.cons.injEq, and_true, true_and] at h
  obtain ⟨hhigh, hlow⟩ := h
  have hhigh := hexDigit_inj (by omega) (by omega) hhigh
  have hlow := hexDigit_inj (by omega) (by omega) hlow
  apply BitVec.eq_of_toNat_eq
  omega

theorem bitText_inj {b c : Bool} (h : bitText b = bitText c) : b = c := by
  revert b c; decide

/-- R65: the part that both textual forms share, `a, operand, cin`. -/
def operandsText (r : Request) : List Char :=
  byteText r.a ++ ([',', ' '] ++ (byteText r.operand ++ ([',', ' '] ++ bitText r.cin)))

/-- Every part has a fixed length, so equal texts have equal parts. -/
theorem operandsText_inj {r q : Request} (h : operandsText r = operandsText q) :
    r.a = q.a ∧ r.operand = q.operand ∧ r.cin = q.cin := by
  obtain ⟨ha, h⟩ := List.append_inj h rfl
  obtain ⟨hv, h⟩ := List.append_inj (List.append_cancel_left h) rfl
  exact ⟨byteText_inj ha, byteText_inj hv, bitText_inj (List.append_cancel_left h)⟩

theorem mnemonicText_eq (i : Instr) :
    mnemonicText i = mnemonic i ++ ([' '] ++ operandsText (requestOfInstr i)) := by
  simp only [mnemonicText, operandsText, List.append_assoc]

/-- R65: the name of KSIM's function. -/
def functionText : Op → List Char
  | .add      => ['A', 'd', 'd', '(']
  | .subtract => ['S', 'u', 'b', 't', 'r', 'a', 'c', 't', '(']

/-- R65: the end of KSIM's call, with its mode. -/
def modeText : Mode → List Char
  | .binary  => [',', ' ', 'B', 'i', 'n', 'a', 'r', 'y', ')']
  | .decimal => [',', ' ', 'D', 'e', 'c', 'i', 'm', 'a', 'l', ')']

theorem callText_eq (i : Instr) :
    callText i = functionText (requestOfInstr i).op ++ (operandsText (requestOfInstr i) ++
      modeText (requestOfInstr i).mode) := by
  cases i <;> rfl

theorem opBit_injective : Function.Injective opBit := Function.LeftInverse.injective opOfBit_opBit

theorem modeBit_injective : Function.Injective modeBit := Function.LeftInverse.injective modeOfBit_modeBit

theorem requestOfInstr_injective : Function.Injective requestOfInstr :=
  Function.LeftInverse.injective instrOfRequest_requestOfInstr

/-- R59: the name of an operation tells `op` by its first character and `mode` by its fifth. -/
theorem opBit_modeBit_of_mnemonic (i : Instr) :
    opBit (requestOfInstr i).op = ((mnemonic i)[0]? == some 'S') ∧
      modeBit (requestOfInstr i).mode = ((mnemonic i)[4]? == some 'D') := by
  cases i <;> exact ⟨rfl, rfl⟩

theorem mnemonic_inj {i j : Instr} (h : mnemonic i = mnemonic j) :
    (requestOfInstr i).op = (requestOfInstr j).op ∧ (requestOfInstr i).mode = (requestOfInstr j).mode := by
  obtain ⟨hopi, hmodei⟩ := opBit_modeBit_of_mnemonic i
  obtain ⟨hopj, hmodej⟩ := opBit_modeBit_of_mnemonic j
  rw [h] at hopi hmodei
  exact ⟨opBit_injective (hopi.trans hopj.symm), modeBit_injective (hmodei.trans hmodej.symm)⟩

theorem length_mnemonic (i : Instr) : (mnemonic i).length = 7 := by
  cases i <;> rfl

/-- R65: KSIM's call tells `op` by its first character. -/
theorem opBit_of_callText (i : Instr) : opBit (requestOfInstr i).op = ((callText i)[0]? == some 'S') := by
  cases i <;> rfl

/-- R65: the end of KSIM's call tells `mode` by the first character of its name. -/
theorem modeBit_of_modeText (m : Mode) : modeBit m = ((modeText m)[2]? == some 'D') := by
  cases m <;> rfl

theorem modeText_inj {m m' : Mode} (h : modeText m = modeText m') : m = m' := by
  apply modeBit_injective
  rw [modeBit_of_modeText, h, ← modeBit_of_modeText]

/-- R56: two operations that agree in `op`, `mode` and the text of their operands are the same. -/
theorem instr_eq_of_ports {i j : Instr} (hop : (requestOfInstr i).op = (requestOfInstr j).op)
    (hmode : (requestOfInstr i).mode = (requestOfInstr j).mode)
    (h : operandsText (requestOfInstr i) = operandsText (requestOfInstr j)) : i = j := by
  obtain ⟨ha, hv, hcin⟩ := operandsText_inj h
  apply requestOfInstr_injective
  exact (Request.mk.injEq ..).mpr ⟨hop, hmode, hcin, ha, hv⟩

theorem mnemonicText_inj {i j : Instr} (h : mnemonicText i = mnemonicText j) : i = j := by
  rw [mnemonicText_eq, mnemonicText_eq] at h
  obtain ⟨hname, hrest⟩ := List.append_inj h (by rw [length_mnemonic, length_mnemonic])
  obtain ⟨hop, hmode⟩ := mnemonic_inj hname
  exact instr_eq_of_ports hop hmode (List.append_cancel_left hrest)

theorem callText_inj {i j : Instr} (h : callText i = callText j) : i = j := by
  have hop : (requestOfInstr i).op = (requestOfInstr j).op := by
    apply opBit_injective
    rw [opBit_of_callText, h, ← opBit_of_callText]
  rw [callText_eq, callText_eq, hop] at h
  obtain ⟨hoperands, hmode⟩ := List.append_inj (List.append_cancel_left h) rfl
  exact instr_eq_of_ports hop (modeText_inj hmode) hoperands

/-- Settles O11: the parts of each text can be told apart, and each part tells what it stands for. -/
theorem textDenotesOneOperation : Obligations.TextDenotesOneOperation :=
  ⟨fun _ _ => mnemonicText_inj, fun _ _ => callText_inj⟩

/-! ### Chains of requests written as lines (R67) -/

/-- R67: every reference of the line names one of the first `n` requests, counted from 1. -/
def RefersWithin (n : Nat) (l : Line) : Prop :=
  (∀ k, l.cin = .carryOf k → 1 ≤ k ∧ k ≤ n) ∧ (∀ k, l.a = .resultOf k → 1 ≤ k ∧ k ≤ n) ∧
    (∀ k, l.operand = .resultOf k → 1 ≤ k ∧ k ≤ n)

theorem resolveCarry_of_within {taken : List Response} {src : CarrySource}
    (h : ∀ k, src = .carryOf k → 1 ≤ k ∧ k ≤ taken.length) : ∃ c, resolveCarry taken src = some c := by
  cases src with
  | literal b => exact ⟨b, rfl⟩
  | carryOf k =>
    obtain ⟨h1, hk⟩ := h k rfl
    obtain ⟨p, hp⟩ := responseNumber_of_le h1 hk
    exact ⟨p.C, congrArg (Option.map Response.C) hp⟩

theorem resolveByte_of_within {taken : List Response} {src : ByteSource}
    (h : ∀ k, src = .resultOf k → 1 ≤ k ∧ k ≤ taken.length) : ∃ x, resolveByte taken src = some x := by
  cases src with
  | literal x => exact ⟨x, rfl⟩
  | resultOf k =>
    obtain ⟨h1, hk⟩ := h k rfl
    obtain ⟨p, hp⟩ := responseNumber_of_le h1 hk
    exact ⟨p.result, congrArg (Option.map Response.result) hp⟩

theorem resolveLine_of_refersWithin {taken : List Response} {l : Line} (h : RefersWithin taken.length l) :
    ∃ r, resolveLine taken l = some r := by
  obtain ⟨hcin, ha, hv⟩ := h
  obtain ⟨c, hcin⟩ := resolveCarry_of_within hcin
  obtain ⟨a, ha⟩ := resolveByte_of_within ha
  obtain ⟨v, hv⟩ := resolveByte_of_within hv
  exact ⟨⟨l.op, l.mode, c, a, v⟩, resolveLine_eq_some.2 ⟨rfl, rfl, ha, hv, hcin⟩⟩

/-- R67: lines that refer to earlier requests only are a program: each resolves by the responses before it. -/
theorem programRequests_of_refersWithin {taken : List Response} {ls : List Line}
    (h : ∀ n l, ls[n]? = some l → RefersWithin (taken.length + n) l) :
    ∃ rs, programRequests taken ls = some rs := by
  induction ls generalizing taken with
  | nil => exact ⟨[], rfl⟩
  | cons l ls ih =>
    obtain ⟨r, hr⟩ := resolveLine_of_refersWithin (h 0 l rfl)
    have hrest : ∀ n m, ls[n]? = some m → RefersWithin ((taken ++ [eval r]).length + n) m := by
      intro n m hm
      have hlength : (taken ++ [eval r]).length + n = taken.length + (n + 1) := by
        rw [List.length_append, List.length_singleton, Nat.add_assoc, Nat.add_comm 1]
      rw [hlength]
      exact h (n + 1) m hm
    obtain ⟨rs, hrs⟩ := ih hrest
    exact ⟨r :: rs, programRequests_cons_eq_some.2 ⟨r, rs, hr, hrs, rfl⟩⟩

theorem length_of_programRequests {taken : List Response} {ls : List Line} {rs : List Request}
    (h : programRequests taken ls = some rs) : rs.length = ls.length := by
  induction ls generalizing taken rs with
  | nil =>
    obtain rfl : [] = rs := Option.some.inj h
    rfl
  | cons l ls ih =>
    obtain ⟨r, rs, -, hrs, rfl⟩ := programRequests_cons_eq_some.1 h
    rw [List.length_cons, List.length_cons, ih hrs]

/-- R67: a line of a program is the request it resolves to by the responses of the lines before it. -/
theorem resolveLine_of_programRequests {taken : List Response} {ls : List Line} {rs : List Request}
    (h : programRequests taken ls = some rs) {n : Nat} {l : Line} {r : Request} (hl : ls[n]? = some l)
    (hr : rs[n]? = some r) : resolveLine (taken ++ (rs.take n).map eval) l = some r := by
  induction ls generalizing taken rs n with
  | nil => simp at hl
  | cons l' ls ih =>
    obtain ⟨r', rs, hr', hrs, rfl⟩ := programRequests_cons_eq_some.1 h
    cases n with
    | zero =>
      obtain rfl : l' = l := Option.some.inj hl
      obtain rfl : r' = r := Option.some.inj hr
      simpa using hr'
    | succ n => simpa using ih hrs hl hr

/-- R67: an output of request number k, counted from 1, is that of the request at index k - 1. -/
theorem output_of_responseNumber {α : Type} {output : Response → α} {rs : List Request} {n k : Nat} {x : α}
    (h : (responseNumber ((rs.take n).map eval) k).map output = some x) :
    1 ≤ k ∧ k ≤ n ∧ ∃ q, rs[k - 1]? = some q ∧ x = output (eval q) := by
  obtain ⟨p, hp, rfl⟩ := Option.map_eq_some_iff.1 h
  obtain ⟨h1, hp⟩ := responseNumber_eq_some.1 hp
  rw [List.getElem?_map, Option.map_eq_some_iff] at hp
  obtain ⟨q, hq, rfl⟩ := hp
  rw [List.getElem?_take, Option.ite_none_right_eq_some] at hq
  obtain ⟨hk, hq⟩ := hq
  exact ⟨h1, by omega, q, hq, rfl⟩

theorem resolveCarry_meaning {rs : List Request} {n : Nat} {src : CarrySource} {c : Bool}
    (h : resolveCarry ((rs.take n).map eval) src = some c) :
    (∀ b, src = .literal b → c = b) ∧
      (∀ k, src = .carryOf k → 1 ≤ k ∧ k ≤ n ∧ ∃ q, rs[k - 1]? = some q ∧ c = (eval q).C) := by
  constructor
  · rintro b rfl
    exact (Option.some.inj h).symm
  · rintro k rfl
    exact output_of_responseNumber h

theorem resolveByte_meaning {rs : List Request} {n : Nat} {src : ByteSource} {x : Byte}
    (h : resolveByte ((rs.take n).map eval) src = some x) :
    (∀ y, src = .literal y → x = y) ∧
      (∀ k, src = .resultOf k → 1 ≤ k ∧ k ≤ n ∧ ∃ q, rs[k - 1]? = some q ∧ x = (eval q).result) := by
  constructor
  · rintro y rfl
    exact (Option.some.inj h).symm
  · rintro k rfl
    exact output_of_responseNumber h

/-- Settles O57: line n is resolved by the responses of exactly the n requests before it, and the run answers them. -/
theorem chainNotationNamesEarlierOutputs : Obligations.ChainNotationNamesEarlierOutputs := by
  constructor
  · intro ls h
    apply programRequests_of_refersWithin
    intro n l hl
    rw [List.length_nil, Nat.zero_add]
    exact h n l hl
  · intro ls rs h
    have hlength := length_of_programRequests h
    refine ⟨hlength, by rw [programResponses, h, Option.map_some], hlength ▸ run_length rs [], ?_⟩
    intro n l r hl hr
    obtain ⟨hop, hmode, ha, hv, hcin⟩ := resolveLine_eq_some.1 (resolveLine_of_programRequests h hl hr)
    obtain ⟨hliteral, hcarry⟩ := resolveCarry_meaning hcin
    obtain ⟨haLiteral, haResult⟩ := resolveByte_meaning ha
    obtain ⟨hvLiteral, hvResult⟩ := resolveByte_meaning hv
    exact ⟨hop, hmode, hliteral, hcarry, haLiteral, haResult, hvLiteral, hvResult⟩

end Sys2Proof.Proofs
end

section
/-! PROOFS. Arithmetic: what `ADD.BIN` and `ADD.DEC` answer, step by step and as sums of numbers. -/

namespace Sys2Proof.Proofs

open Sys2Proof Sys2Proof.Machine

/-! ### What the statements about single operations share -/

/-- R59: the code of an operation, `op` and `mode`. -/
def selectorCode : Instr → BitVec 2
  | .addBin _ _ _ => 0b00#2
  | .addDec _ _ _ => 0b01#2
  | .subBin _ _ _ => 0b10#2
  | .subDec _ _ _ => 0b11#2

theorem ofBool_opBit_append_ofBool_modeBit (i : Instr) :
    BitVec.ofBool (opBit (requestOfInstr i).op) ++ BitVec.ofBool (modeBit (requestOfInstr i).mode) =
      selectorCode i := by
  cases i <;> simp only [requestOfInstr, opBit, modeBit, selectorCode] <;> rfl

/-- R57, R59: bits 18 and 17 of the word of an operation are its code. -/
theorem encode_extractLsb'_selector (i : Instr) : (encode i).extractLsb' 17 2 = selectorCode i := by
  rw [← ofBool_opBit_append_ofBool_modeBit, encode, wordOfRequest, BitVec.extractLsb'_append_eq_of_le (by decide),
    BitVec.extractLsb'_append_eq_of_le (by decide)]
  exact BitVec.extractLsb'_append_eq_left

/-- R8: the sign of a byte is its bit 7. -/
theorem byteSign_eq_getLsbD (x : Byte) : byteSign x = x.getLsbD 7 :=
  (byteSign_eq x).trans (getLsbD_seven x).symm

/-- R10, R82: the sign of an intermediate, however wide, is its bit 7. -/
theorem sign_natCast (n : Nat) : sign n = n.testBit 7 := by
  have hmod : ((n : Int) % 256).toNat = n % 2 ^ 8 := by omega
  rw [sign, bit_eq_testBit, hmod, Nat.testBit_mod_two_pow, decide_eq_true (by decide), Bool.true_and]

/-- R76 (6), R80 (4): the overflow test of Add is that the operands agree in bit 7 and the sign out differs. -/
theorem flagVAdd_eq (a v : Byte) (signOut : Bool) :
    flagVAdd a v signOut = decide (a.getLsbD 7 = v.getLsbD 7 ∧ signOut ≠ a.getLsbD 7) := by
  simp only [flagVAdd, byteSign_eq_getLsbD, Bool.decide_and, bne, Bool.beq_eq_decide_eq, decide_not, ne_eq]

/-- Where a digit below the base and a carry make up a sum, they are its remainder and whether it reaches the base. -/
theorem digit_and_carry_of_conserves {base x n : Nat} {carry : Bool} (hx : x < base)
    (h : x + base * carry.toNat = n) : x = n % base ∧ carry = decide (n ≥ base) := by
  subst h
  refine ⟨by rw [Nat.add_mul_mod_self_left, Nat.mod_eq_of_lt hx], ?_⟩
  cases carry with
  | false => simpa using hx
  | true => simp

/-! ### `ADD.BIN` -/

/-- R76 (2), (3): result and carry of `ADD.BIN` are the remainder of the sum and whether it passes a byte. -/
theorem addBin_result_and_carry (a v : Byte) (c : Bool) :
    (respond (.addBin a v c)).result.toNat = (a.toNat + v.toNat + c.toNat) % 256 ∧
      (respond (.addBin a v c)).C = decide (a.toNat + v.toNat + c.toNat ≥ 256) :=
  digit_and_carry_of_conserves (BitVec.isLt _) (addBinResponse_conserves a v c)

/-- R76 (6), R78: the overflow of `ADD.BIN` is taken from the result. -/
theorem addBin_overflow (a v : Byte) (c : Bool) :
    (respond (.addBin a v c)).V =
      decide (a.getLsbD 7 = v.getLsbD 7 ∧ (respond (.addBin a v c)).result.getLsbD 7 ≠ a.getLsbD 7) := by
  rw [← flagVAdd_eq, ← byteSign_eq_getLsbD]
  rfl

/-- R76: a zero result overflows only from two negative bytes, whose sum is then exactly 256. -/
theorem addBin_zero_and_overflow_iff (a v : Byte) (c : Bool) :
    (respond (.addBin a v c)).Z = true ∧ (respond (.addBin a v c)).V = true ↔
      a = 0x80 ∧ v = 0x80 ∧ c = false := by
  constructor
  · rintro ⟨hZ, hV⟩
    obtain ⟨hsum, -⟩ := addBin_result_and_carry a v c
    rw [(flagsAgree_respond _).2, decide_eq_true_eq] at hZ
    simp only [addBin_overflow, getLsbD_seven, hZ, decide_eq_true_eq, decide_eq_decide, ne_eq] at hV
    obtain ⟨hsame, hdiffer⟩ := hV
    have hc := c.toNat_le
    have hvalues : a.toNat = 128 ∧ v.toNat = 128 ∧ c.toNat = 0 := by omega
    obtain ⟨ha, hv, hc⟩ := hvalues
    exact ⟨BitVec.eq_of_toNat_eq ha, BitVec.eq_of_toNat_eq hv, Bool.toNat_eq_zero.1 hc⟩
  · rintro ⟨rfl, rfl, rfl⟩
    decide

/-- Settles O24: the sum is conserved, so result and C follow; V is read from the result. -/
theorem addBinGivesSumAndFlags : Obligations.AddBinGivesSumAndFlags := by
  intro a v c r
  obtain ⟨hresult, hcarry⟩ := addBin_result_and_carry a v c
  obtain ⟨hN, hZ⟩ := flagsAgree_respond (.addBin a v c)
  exact ⟨encode_extractLsb'_selector (.addBin a v c), hcarry, hresult, hZ, hN, addBin_overflow a v c,
    addBin_zero_and_overflow_iff a v c⟩

/-- R77: that two signs agree and a third differs, as exclusive ors. -/
theorem decide_agree_and_differ_eq_xor (p q r : Bool) :
    decide (p = q ∧ r ≠ p) = ((p ^^ r) && (q ^^ r)) ∧
      decide (p = q ∧ r ≠ p) = (((p ^^ q) ^^ true) && (p ^^ r)) := by
  revert p q r; decide

/-- Settles O25: bit 7 of a bitwise operation is the operation on the signs. -/
theorem addBinOverflowByExclusiveOr : Obligations.AddBinOverflowByExclusiveOr := by
  intro a v c r
  have hones : (0xFF#8).getLsbD 7 = true := rfl
  rw [addBin_overflow]
  simp only [BitVec.getLsbD_and, BitVec.getLsbD_xor, hones]
  exact decide_agree_and_differ_eq_xor _ _ _

/-! ### `ADD.DEC` -/

/-- R80 (3): the correction of `lo`. -/
theorem addDecLowCorrected_eq (a v : Byte) (c : Bool) :
    addDecLowCorrected a v c = if addDecLow a v c > 9 then addDecLow a v c + 6 else addDecLow a v c := by
  simp only [addDecLowCorrected, addDecHalfCarry, decide_eq_true_eq]

/-- R79, R80 (3): the carry from `lo` into `hi`. -/
theorem addDecHighAtV_eq (a v : Byte) (c : Bool) :
    addDecHighAtV a v c = if addDecLow a v c > 9 then addDecHigh a v + 0x10 else addDecHigh a v := by
  simp only [addDecHighAtV, addDecHalfCarry, decide_eq_true_eq]

/-- R79, R80 (1), (2), (3): `hi` at the overflow test from the nibbles of the operands. -/
theorem addDecHighAtV_eq_add (a v : Byte) (c : Bool) :
    addDecHighAtV a v c =
      16 * (a.toNat / 16 + v.toNat / 16) + (if a.toNat % 16 + v.toNat % 16 + c.toNat > 9 then 16 else 0) := by
  rw [addDecHighAtV_eq, addDecLow_eq, addDecHigh_eq, carryNumber_eq]
  split <;> rfl

/-- R82, R87: `hi` at the overflow test is a multiple of 16 up to 0x1F0. -/
theorem addDecHighAtV_range (a v : Byte) (c : Bool) :
    addDecHighAtV a v c % 16 = 0 ∧ addDecHighAtV a v c ≤ 0x1F0 := by
  rw [addDecHighAtV_eq_add]
  split <;> omega

/-- R80 (5): the high-nibble correction. -/
theorem addDecHighCorrected_eq (a v : Byte) (c : Bool) :
    addDecHighCorrected a v c =
      if addDecHighAtV a v c > 0x90 then addDecHighAtV a v c + 0x60 else addDecHighAtV a v c := rfl

/-- R80 (4), R81: the overflow of `ADD.DEC` is taken from `hi` between the corrections. -/
theorem addDec_overflow (a v : Byte) (c : Bool) :
    (respond (.addDec a v c)).V =
      decide (a.getLsbD 7 = v.getLsbD 7 ∧ (addDecHighAtV a v c).testBit 7 ≠ a.getLsbD 7) := by
  rw [← flagVAdd_eq, ← sign_natCast]
  rfl

/-- R80 (6): the carry of `ADD.DEC` is taken from the corrected `hi`. -/
theorem addDec_carry (a v : Byte) (c : Bool) :
    (respond (.addDec a v c)).C = decide (addDecHighCorrected a v c > 0xFF) := rfl

/-- R83: only a corrected `hi` passes a byte, and from 0xA0 on it does. -/
theorem addDecHighCorrected_gt_iff (a v : Byte) (c : Bool) :
    addDecHighCorrected a v c > 0xFF ↔ 0xA0 ≤ addDecHighAtV a v c := by
  obtain ⟨hmod, -⟩ := addDecHighAtV_range a v c
  rw [addDecHighCorrected_eq]
  split <;> omega

/-- R82: bit 7 of `hi` at the overflow test, as the values that have it set. -/
theorem addDecHighAtV_testBit_seven (a v : Byte) (c : Bool) :
    (addDecHighAtV a v c).testBit 7 =
      decide (0x80 ≤ addDecHighAtV a v c ∧ addDecHighAtV a v c ≤ 0xF0 ∨
        0x180 ≤ addDecHighAtV a v c ∧ addDecHighAtV a v c ≤ 0x1F0) := by
  obtain ⟨hmod, hle⟩ := addDecHighAtV_range a v c
  rw [← sign_natCast, sign_eq, decide_eq_decide]
  omega

/-- Settles O28: each step of the model is the step of the statement, with nibbles as quotient and remainder by 16. -/
theorem addDecGivesDecimalSumAndFlags : Obligations.AddDecGivesDecimalSumAndFlags := by
  intro a v c lo hi lo' hi' hi'' r
  have hlo : addDecLow a v c = lo := by rw [addDecLow_eq, carryNumber_eq]
  have hhi : addDecHigh a v = hi := by rw [addDecHigh_eq, Nat.mul_comm, Nat.add_mul]
  have hlo' : addDecLowCorrected a v c = lo' := by rw [addDecLowCorrected_eq, hlo]
  have hhi' : addDecHighAtV a v c = hi' := by rw [addDecHighAtV_eq, hlo, hhi]
  have hhi'' : addDecHighCorrected a v c = hi'' := by rw [addDecHighCorrected_eq, hhi']
  have hV := addDec_overflow a v c
  have hC := addDec_carry a v c
  have hresult := addDecResult_toNat a v c
  rw [hhi'] at hV
  rw [hhi''] at hC
  rw [hhi'', hlo'] at hresult
  obtain ⟨hN, hZ⟩ := flagsAgree_respond (.addDec a v c)
  exact ⟨encode_extractLsb'_selector (.addDec a v c), hV, hC, hresult, hZ, hN⟩

/-- Settles O29: `hi` is a multiple of 16 up to 0x1F0, and these have bit 7 set in exactly the two ranges. -/
theorem addDecSignOfHiIsBitSeven : Obligations.AddDecSignOfHiIsBitSeven := by
  intro a v c hi signHi
  obtain ⟨hmod, hle⟩ := addDecHighAtV_range a v c
  have hV := addDec_overflow a v c
  rw [addDecHighAtV_testBit_seven] at hV
  exact ⟨hmod, hle, addDecHighAtV_eq_add a v c, hV, by decide, by decide⟩

/-- Settles O30: multiples of 16 above 0x90 are those from 0xA0 on, which the correction takes to 0x100 or more. -/
theorem addDecCarryThreshold : Obligations.AddDecCarryThreshold := by
  intro a v c hi hi'
  have hhi : addDecHighAtV a v c = hi := addDecHighAtV_eq_add a v c
  have hhi' : addDecHighCorrected a v c = hi' := by rw [addDecHighCorrected_eq, hhi]
  have hC : (respond (.addDec a v c)).C = true ↔ hi' > 0xFF := by rw [addDec_carry, hhi', decide_eq_true_eq]
  have hthreshold : hi' > 0xFF ↔ 0xA0 ≤ hi := by rw [← hhi', ← hhi, addDecHighCorrected_gt_iff]
  refine ⟨hC, fun h => ?_, fun h => ?_, hC.trans hthreshold⟩
  · have := hthreshold.1 (hC.1 h)
    exact if_pos (by omega)
  · rw [← Bool.not_eq_true, hC, hthreshold]
    omega

/-! ### `ADD.DEC` in registers of 6 and 10 bits (R87, R107) -/

theorem addDecLow_le (a v : Byte) (c : Bool) : addDecLow a v c ≤ 31 := by
  have := carryNumber_le c
  rw [addDecLow_eq]
  omega

theorem addDecLowCorrected_le (a v : Byte) (c : Bool) : addDecLowCorrected a v c ≤ 37 := by
  have := addDecLow_le a v c
  rw [addDecLowCorrected_eq]
  split <;> omega

theorem addDecHigh_le (a v : Byte) : addDecHigh a v ≤ 0x1E0 := by
  rw [addDecHigh_eq]
  omega

theorem addDecHighCorrected_le (a v : Byte) (c : Bool) : addDecHighCorrected a v c ≤ 0x250 := by
  obtain ⟨-, hle⟩ := addDecHighAtV_range a v c
  rw [addDecHighCorrected_eq]
  split <;> omega

/-- A correction in a register that is wide enough for it is the correction of the number. -/
theorem toNat_ite_gt_add {m n : Nat} (y t : BitVec m) {x d : BitVec n} (h : x.toNat + d.toNat < 2 ^ n) :
    (if y > t then x + d else x).toNat = if y.toNat > t.toNat then x.toNat + d.toNat else x.toNat := by
  simp only [gt_iff_lt, BitVec.lt_def]
  split
  · rw [BitVec.toNat_add, Nat.mod_eq_of_lt h]
  · rfl

/-- R87: 6 bits hold the sum of the low nibbles. -/
theorem toNat_lowRegister (a v : Byte) (c : Bool) :
    ((a.setWidth 4).setWidth 6 + (v.setWidth 4).setWidth 6 + BitVec.ofNat 6 c.toNat).toNat = addDecLow a v c := by
  have := c.toNat_le
  simp only [addDecLow_eq, carryNumber_eq, BitVec.toNat_add, BitVec.toNat_setWidth, BitVec.toNat_ofNat]
  omega

/-- R87: 10 bits hold the sum of the high nibbles. -/
theorem toNat_highRegister (a v : Byte) :
    ((a &&& 0xF0#8).setWidth 10 + (v &&& 0xF0#8).setWidth 10).toNat = addDecHigh a v := by
  have hle := addDecHigh_le a v
  have hnibble (x : Byte) : (x &&& 0xF0#8).toNat = highNibbleInPlace x := BitVec.toNat_and ..
  rw [addDecHigh] at hle ⊢
  simp only [BitVec.toNat_add, BitVec.toNat_setWidth, hnibble]
  omega

/-- R80 (7): the nibbles may be taken from the registers before they are put together. -/
theorem addDecResult_eq_of_registers {a v : Byte} {c : Bool} {lo : BitVec 6} {hi : BitVec 10}
    (hlo : lo.toNat = addDecLowCorrected a v c) (hhi : hi.toNat = addDecHighCorrected a v c) :
    addDecResult a v c = (lo &&& 0xF#6).setWidth 8 ||| (hi &&& 0xF0#10).setWidth 8 := by
  apply BitVec.eq_of_toNat_eq
  simp only [addDecResult, ← hlo, ← hhi, BitVec.toNat_ofNat, Nat.or_mod_two_pow, BitVec.toNat_or,
    BitVec.toNat_setWidth, BitVec.toNat_and]

/-- Settles O31: no register overflows in any step, so each holds the number of that step. -/
theorem addDecIntermediateRanges : Obligations.AddDecIntermediateRanges := by
  intro a v c
  have hlowLe := addDecLow_le a v c
  have hhighLe := addDecHigh_le a v
  obtain ⟨-, hhighAtVLe⟩ := addDecHighAtV_range a v c
  refine ⟨hlowLe, addDecLowCorrected_le a v c, hhighLe, hhighAtVLe, addDecHighCorrected_le a v c, ?_⟩
  intro lo hi lo' hi' hi'' r
  have hlo : lo.toNat = addDecLow a v c := toNat_lowRegister a v c
  have hhi : hi.toNat = addDecHigh a v := toNat_highRegister a v
  have hlo' : lo'.toNat = addDecLowCorrected a v c := by
    rw [addDecLowCorrected_eq, ← hlo]
    exact toNat_ite_gt_add lo 9#6 (show lo.toNat + 6 < 2 ^ 6 by omega)
  have hhi' : hi'.toNat = addDecHighAtV a v c := by
    rw [addDecHighAtV_eq, ← hlo, ← hhi]
    exact toNat_ite_gt_add lo 9#6 (show hi.toNat + 0x10 < 2 ^ 10 by omega)
  have hhi'' : hi''.toNat = addDecHighCorrected a v c := by
    rw [addDecHighCorrected_eq, ← hhi']
    exact toNat_ite_gt_add hi' 0x90#10 (show hi'.toNat + 0x60 < 2 ^ 10 by omega)
  refine ⟨addDecResult_eq_of_registers hlo' hhi'', ?_, ?_⟩
  · rw [addDec_carry, ← hhi'']
    rfl
  · rw [addDec_overflow, ← flagVAdd_eq, flagVAdd, byteSign_eq_getLsbD, byteSign_eq_getLsbD, ← hhi']
    rfl

/-! ### `ADD.DEC` on valid packed BCD, and on examples -/

/-- A valid packed-BCD byte is the packed form of its number. -/
theorem toNat_of_validBcd {x : Byte} (h : validBcd x = true) : x.toNat = 16 * (dec x / 10) + dec x % 10 := by
  rw [validBcd_iff] at h
  rw [dec]
  omega

/-- Settles O32: the decimal sum is conserved and the result is valid, so result and C follow. -/
theorem addDecAddsPackedDecimals : Obligations.AddDecAddsPackedDecimals := by
  intro a v c ha hv r n
  obtain ⟨hvalid, hsum⟩ := addDecResponse_conserves ha hv c
  obtain ⟨hdec, hcarry⟩ := digit_and_carry_of_conserves (dec_lt_of_validBcd hvalid) hsum
  refine ⟨?_, hcarry, hvalid⟩
  have hresult := toNat_of_validBcd hvalid
  rw [hdec] at hresult
  exact hresult

/-- Settles O33: the model evaluates each request to the response written out. -/
theorem addDecWorkedExamples : Obligations.AddDecWorkedExamples :=
  ⟨rfl, rfl, rfl, rfl, rfl, rfl, rfl⟩

end Sys2Proof.Proofs
end

section
/-! PROOFS. Subtract: what `SUB.BIN` and `SUB.DEC` answer, as differences of integers and in unsigned registers. -/

namespace Sys2Proof.Proofs

open Sys2Proof Sys2Proof.Machine

/-! ### An integer in a register -/

section Registers

variable {W : Nat}

theorem ofInt_sub (m n : Int) : BitVec.ofInt W (m - n) = BitVec.ofInt W m - BitVec.ofInt W n := by
  rw [Int.sub_eq_add_neg, BitVec.ofInt_add, BitVec.ofInt_neg, BitVec.sub_eq_add_neg]

/-- R9: truncation to a byte may be done in any register of 8 bits or more. -/
theorem setWidth_ofInt (hW : 8 ≤ W) (n : Int) : (BitVec.ofInt W n).setWidth 8 = truncate n := by
  have hdvd : (256 : Int) ∣ ((2 ^ W : Nat) : Int) := Int.natCast_dvd_natCast.2 (pow_dvd_pow 2 hW)
  have hmod := Int.emod_emod_of_dvd n hdvd
  have hnonneg : 0 ≤ n % ((2 ^ W : Nat) : Int) := Int.emod_nonneg n (by positivity)
  have htruncate := truncate_toNat n
  apply BitVec.eq_of_toNat_eq
  rw [BitVec.toNat_setWidth, BitVec.toNat_ofInt]
  omega

/-- R10: the sign of an intermediate is bit 7 of any register that holds it. -/
theorem sign_eq_getLsbD_ofInt (hW : 8 ≤ W) (n : Int) : sign n = (BitVec.ofInt W n).getLsbD 7 := by
  rw [sign_eq_byteSign_truncate, byteSign_eq_getLsbD, ← setWidth_ofInt hW, BitVec.getLsbD_setWidth]
  rfl

/-- R93, R100: in a register of 9 bits or more, the negative integers down to -256 are those that exceed 255. -/
theorem toNat_ofInt_le_iff (hW : 9 ≤ W) {n : Int} (hlow : -256 ≤ n) (hhigh : n ≤ 255) :
    (BitVec.ofInt W n).toNat ≤ 255 ↔ 0 ≤ n := by
  have hpow : 2 ^ 9 ≤ 2 ^ W := Nat.pow_le_pow_right (by decide) hW
  rw [BitVec.toNat_ofInt]
  by_cases hn : 0 ≤ n
  · rw [Int.emod_eq_of_lt hn (by omega)]
    omega
  · rw [← Int.add_emod_right, Int.emod_eq_of_lt (by omega) (by omega)]
    omega

/-- R100: a correction triggered by a negative integer may be triggered by a register that exceeds 255. -/
theorem ite_gt_sub_eq_ofInt (hW : 9 ≤ W) {t : Int} (hlow : -256 ≤ t) (hhigh : t ≤ 255) (n : Int) (d : Nat) :
    (if (BitVec.ofInt W t).toNat > 255 then BitVec.ofInt W n - BitVec.ofNat W d else BitVec.ofInt W n) =
      BitVec.ofInt W (n - if t < 0 then (d : Int) else 0) := by
  have htest : (BitVec.ofInt W t).toNat > 255 ↔ t < 0 := by
    rw [gt_iff_lt, ← not_le, toNat_ofInt_le_iff hW hlow hhigh, not_le]
  simp only [htest]
  split
  · rw [ofInt_sub, BitVec.ofInt_natCast]
  · rw [sub_zero]

/-- R25, R26: result, N and Z may be taken from any register of 8 bits or more that holds the difference. -/
theorem responseWith_truncate_eq (hW : 8 ≤ W) (n : Int) (v c : Bool) :
    responseWith (truncate n) v c =
      { result := (BitVec.ofInt W n).setWidth 8, N := (BitVec.ofInt W n).getLsbD 7, V := v,
        Z := decide ((BitVec.ofInt W n).toNat % 256 = 0), C := c } := by
  have hN : flagN (truncate n) = (BitVec.ofInt W n).getLsbD 7 := by
    rw [flagN, ← sign_eq_byteSign_truncate, sign_eq_getLsbD_ofInt hW]
  have hZ : flagZ (truncate n) = decide ((BitVec.ofInt W n).toNat % 256 = 0) := by
    have hagree : flagZ (truncate n) = _ := (flagsAgree_responseWith (truncate n) v c).2
    rw [hagree, responseWith, ← setWidth_ofInt hW, BitVec.toNat_setWidth]
  rw [responseWith, hN, hZ, setWidth_ofInt hW]

end Registers

/-! ### The uncorrected difference, its carry and its overflow -/

theorem subWide0_eq (a v : Byte) (c : Bool) : subWide0 a v c = (a.toNat : Int) - v.toNat + c.toNat - 1 := by
  rw [subWide0, carryNumber_eq]

/-- R91 (2), R95 (2): the overflow test of Subtract is that the difference and the operand both differ from `a` in
bit 7. -/
theorem flagVSub_eq (a v : Byte) (n : Int) :
    flagVSub a v n =
      decide ((BitVec.ofInt 8 n).getLsbD 7 ≠ a.getLsbD 7 ∧ v.getLsbD 7 ≠ a.getLsbD 7) := by
  simp only [flagVSub, byteSign_eq_getLsbD, sign_eq_getLsbD_ofInt (le_refl 8), Bool.decide_and, bne,
    Bool.beq_eq_decide_eq, decide_not, ne_eq]

/-- R117: `SUB.BIN` and `SUB.DEC` take V from the same uncorrected difference. -/
theorem sub_overflow (a v : Byte) (c : Bool) :
    (respond (.subBin a v c)).V = flagVSub a v (subWide0 a v c) ∧
      (respond (.subDec a v c)).V = flagVSub a v (subWide0 a v c) := ⟨rfl, rfl⟩

/-- R93, R117: `SUB.BIN` and `SUB.DEC` take C from the same uncorrected difference. -/
theorem sub_carry (a v : Byte) (c : Bool) :
    (respond (.subBin a v c)).C = decide (0 ≤ subWide0 a v c) ∧
      (respond (.subDec a v c)).C = decide (0 ≤ subWide0 a v c) := ⟨rfl, rfl⟩

/-- R92: that two signs differ from a third, as exclusive ors. -/
theorem decide_both_differ_eq_xor (p q r : Bool) : decide (q ≠ p ∧ r ≠ p) = ((p ^^ q) && (p ^^ r)) := by
  revert p q r; decide

/-- Settles O35: bit 7 of a bitwise operation is the operation on the signs. -/
theorem subtractOverflowByExclusiveOr : Obligations.SubtractOverflowByExclusiveOr := by
  intro a v c w
  obtain ⟨hbin, hdec⟩ := sub_overflow a v c
  have hxor : flagVSub a v (subWide0 a v c) = ((a ^^^ w) &&& (a ^^^ v)).getLsbD 7 := by
    rw [flagVSub_eq, subWide0_eq, BitVec.getLsbD_and, BitVec.getLsbD_xor, BitVec.getLsbD_xor]
    exact decide_both_differ_eq_xor _ _ _
  exact ⟨hbin.trans hxor, hdec.trans hxor⟩

/-- Settles O36: each form of the comparison says that the uncorrected difference is not negative. -/
theorem subtractCarryComparesIntegers : Obligations.SubtractCarryComparesIntegers := by
  intro a v c
  obtain ⟨hbin, hdec⟩ := sub_carry a v c
  obtain ⟨hlow, hhigh⟩ := subWide0_range a v c
  have hwide0 := subWide0_eq a v c
  have hc := c.toNat_le
  have hcompare : 0 ≤ subWide0 a v c ↔ (v.toNat : Int) ≤ (a.toNat : Int) + c.toNat - 1 := by omega
  have hborrow : 0 ≤ subWide0 a v c ↔ v.toNat + (1 - c.toNat) ≤ a.toNat := by omega
  refine ⟨?_, ?_, ?_, fun W hW => ?_, ?_⟩
  · rw [hbin, decide_eq_decide, hcompare]
  · rw [hdec, decide_eq_decide, hcompare]
  · rw [hbin, decide_eq_decide, hborrow]
  · rw [hbin, decide_eq_decide, ← hwide0, toNat_ofInt_le_iff hW hlow hhigh]
  · rw [(sub_carry 0 v false).1, decide_eq_false_iff_not, subWide0_eq]
    show ¬ (0 : Int) ≤ 0 - v.toNat + 0 - 1
    omega

/-! ### `SUB.BIN` -/

/-- R91 (5): the result of `SUB.BIN` is the difference modulo 256. -/
theorem subBin_result (a v : Byte) (c : Bool) :
    ((respond (.subBin a v c)).result.toNat : Int) = subWide0 a v c % 256 := truncate_toNat _

/-- R91: the result of `SUB.BIN` is zero exactly for a difference of 0 or -256. -/
theorem subBin_zero_iff (a v : Byte) (c : Bool) :
    (respond (.subBin a v c)).Z = true ↔ subWide0 a v c = 0 ∨ subWide0 a v c = -256 := by
  obtain ⟨-, hZ⟩ := flagsAgree_respond (.subBin a v c)
  have hresult := subBin_result a v c
  have hrange := subWide0_range a v c
  rw [hZ, decide_eq_true_eq]
  omega

/-- R91: a difference that is a negative multiple of 256 is that of the least and the greatest byte. -/
theorem subBin_zero_and_borrow_iff (a v : Byte) (c : Bool) :
    (respond (.subBin a v c)).Z = true ∧ (respond (.subBin a v c)).C = false ↔
      a = 0x00 ∧ v = 0xFF ∧ c = false := by
  constructor
  · rintro ⟨hZ, hC⟩
    rw [subBin_zero_iff] at hZ
    rw [(sub_carry a v c).1, decide_eq_false_iff_not] at hC
    rw [subWide0_eq] at hZ hC
    have hvalues : a.toNat = 0 ∧ v.toNat = 255 ∧ c.toNat = 0 := by omega
    obtain ⟨ha, hv, hc⟩ := hvalues
    exact ⟨BitVec.eq_of_toNat_eq ha, BitVec.eq_of_toNat_eq hv, Bool.toNat_eq_zero.1 hc⟩
  · rintro ⟨rfl, rfl, rfl⟩
    decide

/-- R91: a zero result overflows only where the bytes meet at the change of sign. -/
theorem subBin_zero_and_overflow_iff (a v : Byte) (c : Bool) :
    (respond (.subBin a v c)).Z = true ∧ (respond (.subBin a v c)).V = true ↔
      a = 0x80 ∧ v = 0x7F ∧ c = false := by
  constructor
  · rintro ⟨hZ, hV⟩
    rw [subBin_zero_iff, subWide0_eq] at hZ
    have hc := c.toNat_le
    simp only [(sub_overflow a v c).1, flagVSub, sign_eq, byteSign_eq, subWide0_eq, Bool.and_eq_true, bne_iff_ne,
      ne_eq, decide_eq_decide] at hV
    obtain ⟨hdifference, hoperand⟩ := hV
    have hvalues : a.toNat = 128 ∧ v.toNat = 127 ∧ c.toNat = 0 := by omega
    obtain ⟨ha, hv, hc⟩ := hvalues
    exact ⟨BitVec.eq_of_toNat_eq ha, BitVec.eq_of_toNat_eq hv, Bool.toNat_eq_zero.1 hc⟩
  · rintro ⟨rfl, rfl, rfl⟩
    decide

/-- R91: the difference of equal operands without a borrow is zero, and so is not negative and does not overflow. -/
theorem subBin_self (a : Byte) : respond (.subBin a a true) = ⟨0, false, false, true, true⟩ := by
  have hwide0 : subWide0 a a true = 0 := by simp [subWide0]
  have hV : flagVSub a a 0 = false := by simp [flagVSub]
  simp only [respond, subBinResponse, hwide0, hV]
  rfl

/-- Settles O34: V, C and the result are read from the integer difference, and Z says that it is 0 or -256. -/
theorem subBinGivesDifferenceAndFlags : Obligations.SubBinGivesDifferenceAndFlags := by
  intro a v c wide0 r
  have hwide0 : subWide0 a v c = wide0 := subWide0_eq a v c
  obtain ⟨hlow, hhigh⟩ := subWide0_range a v c
  have hV := (sub_overflow a v c).1
  have hC := (sub_carry a v c).1
  have hresult := subBin_result a v c
  obtain ⟨hN, hZ⟩ := flagsAgree_respond (.subBin a v c)
  rw [flagVSub_eq] at hV
  rw [hwide0] at hlow hhigh hV hC hresult
  refine ⟨encode_extractLsb'_selector (.subBin a v c), hlow, hhigh, hV, hC, hresult, hZ, hN,
    subBin_zero_and_borrow_iff a v c, subBin_zero_and_overflow_iff a v c, ?_⟩
  rintro ⟨rfl, rfl⟩
  have hself : r = _ := subBin_self a
  rw [hself]
  exact ⟨rfl, rfl, rfl, rfl⟩

/-! ### `SUB.DEC` -/

/-- R95 (3a): the low-nibble probe stays in its range. -/
theorem subDecLowProbe_range (a v : Byte) (c : Bool) : -16 ≤ subDecLowProbe a v c ∧ subDecLowProbe a v c ≤ 15 := by
  have := carryNumber_le c
  rw [subDecLowProbe_eq]
  omega

/-- R95 (3b), R96: the four values of the corrected difference. -/
theorem subDecWide_eq (a v : Byte) (c : Bool) :
    subDecWide a v c =
      if subWide0 a v c < 0 then
        if subDecLowProbe a v c < 0 then subWide0 a v c - 0x66 else subWide0 a v c - 0x60
      else if subDecLowProbe a v c < 0 then subWide0 a v c - 6 else subWide0 a v c := by
  rw [subDecWide]
  split_ifs <;> omega

/-- R95 (3b), R96: the corrected difference stays in its range. -/
theorem subDecWide_range (a v : Byte) (c : Bool) : -358 ≤ subDecWide a v c ∧ subDecWide a v c ≤ 255 := by
  have := subWide0_range a v c
  rw [subDecWide_eq]
  split_ifs <;> omega

/-- Settles O40: the witness is the model's corrected difference. -/
theorem subDecGivesCorrectedDifference : Obligations.SubDecGivesCorrectedDifference := by
  intro a v c wide0 lo r
  have hwide0 : subWide0 a v c = wide0 := subWide0_eq a v c
  have hlo : subDecLowProbe a v c = lo := by
    rw [subDecLowProbe_eq, carryNumber_eq]
    rfl
  obtain ⟨hwide0Low, hwide0High⟩ := subWide0_range a v c
  obtain ⟨hloLow, hloHigh⟩ := subDecLowProbe_range a v c
  obtain ⟨hwideLow, hwideHigh⟩ := subDecWide_range a v c
  have hwide := subDecWide_eq a v c
  have hV := (sub_overflow a v c).2
  have hC := (sub_carry a v c).2
  have hresult : (r.result.toNat : Int) = subDecWide a v c % 256 := truncate_toNat _
  obtain ⟨hN, hZ⟩ := flagsAgree_respond (.subDec a v c)
  rw [flagVSub_eq] at hV
  rw [hwide0] at hwide0Low hwide0High hV hC
  rw [hlo] at hloLow hloHigh
  rw [hwide0, hlo] at hwide
  refine ⟨subDecWide a v c, encode_extractLsb'_selector (.subDec a v c), fun hhigh hlow => ?_, fun hhigh hlow => ?_,
    fun hhigh hlow => ?_, fun hhigh hlow => ?_, hwide0Low, hwide0High, hloLow, hloHigh, hwideLow, hwideHigh, hV, hC,
    hresult, hZ, hN⟩
  · rw [hwide, if_pos hhigh, if_pos hlow]
  · rw [hwide, if_pos hhigh, if_neg hlow]
  · rw [hwide, if_neg hhigh, if_pos hlow]
  · rw [hwide, if_neg hhigh, if_neg hlow]

/-- Settles O41: with the nines' complement of the operand the decimal sum is conserved and the result is valid, so
result and C follow. -/
theorem subDecSubtractsPackedDecimals : Obligations.SubDecSubtractsPackedDecimals := by
  intro a v c ha hv r n
  obtain ⟨hvalid, hsum⟩ := subDecResponse_conserves ha hv c
  have hv100 := dec_lt_of_validBcd hv
  have hn : ((dec a + (100 - 1 - dec v) + c.toNat : Nat) : Int) = n + 100 := by
    simp only [n, dec] at hv100 ⊢
    omega
  obtain ⟨hdec, hcarry⟩ := digit_and_carry_of_conserves (dec_lt_of_validBcd hvalid) hsum
  have hresult := toNat_of_validBcd hvalid
  refine ⟨?_, hcarry.trans (decide_eq_decide.2 (by omega)), hvalid⟩
  show ((subDecResponse a v c).result.toNat : Int) = _
  omega

/-- Settles O42: the model evaluates each request to the response written out. -/
theorem subDecWorkedExamples : Obligations.SubDecWorkedExamples :=
  ⟨rfl, rfl, rfl, rfl, rfl, rfl, rfl, rfl, rfl, rfl⟩

/-! ### Subtract in unsigned registers (R100, R107) -/

/-- Settles O43: each register holds the integer of its step, and exceeds 255 where that is negative. -/
theorem subtractInUnsignedRegisters : Obligations.SubtractInUnsignedRegisters := by
  intro W hW a v c wide0 lo wide1 wide2
  have hW8 : 8 ≤ W := by omega
  obtain ⟨hwide0Low, hwide0High⟩ := subWide0_range a v c
  obtain ⟨hloLow, hloHigh⟩ := subDecLowProbe_range a v c
  have hwide0 : wide0 = BitVec.ofInt W (subWide0 a v c) := by
    rw [subWide0_eq]
    simp only [ofInt_sub, BitVec.ofInt_add, BitVec.ofInt_natCast]
    rfl
  have hlo : lo = BitVec.ofInt W (subDecLowProbe a v c) := by
    rw [subDecLowProbe, lowNibble_eq, lowNibble_eq, carryNumber_eq]
    simp only [ofInt_sub, BitVec.ofInt_add, BitVec.ofInt_natCast]
    rfl
  have hwide1 : wide1 = BitVec.ofInt W (subWide0 a v c - if subWide0 a v c < 0 then 0x60 else 0) := by
    simp only [wide1, hwide0]
    exact ite_gt_sub_eq_ofInt hW hwide0Low hwide0High _ 0x60
  have hwide2 : wide2 = BitVec.ofInt W (subDecWide a v c) := by
    simp only [wide2, hlo, hwide1]
    exact ite_gt_sub_eq_ofInt hW (by omega) (by omega) _ 6
  have hV : flagVSub a v (subWide0 a v c) =
      (wide0.getLsbD 7 != a.getLsbD 7 && v.getLsbD 7 != a.getLsbD 7) := by
    rw [flagVSub, sign_eq_getLsbD_ofInt hW8, byteSign_eq_getLsbD, byteSign_eq_getLsbD, ← hwide0]
  have hC : flagCSub (subWide0 a v c) = decide (wide0.toNat ≤ 255) := by
    rw [hwide0, flagCSub, decide_eq_decide, toNat_ofInt_le_iff hW hwide0Low hwide0High]
  rw [← hV, ← hC, hwide2, hwide0]
  exact ⟨responseWith_truncate_eq hW8 _ _ _, responseWith_truncate_eq hW8 _ _ _⟩

end Sys2Proof.Proofs
end

section
/-! PROOFS. Arithmetic laws: signed overflow, the complement law, commutativity and inverses, comparison, and the flags
of whole chains. -/

namespace Sys2Proof.Proofs

open Sys2Proof Sys2Proof.Machine

/-! ### Z and N -/

/-- Settles O44: N and Z agree with the result, and the sign bit of zero is clear. -/
theorem flagsFollowTheResult : Obligations.FlagsFollowTheResult := by
  intro i
  obtain ⟨hN, hZ⟩ := flagsAgree_respond i
  refine ⟨hZ, hN, fun ⟨hNset, hZset⟩ => ?_⟩
  rw [hN, getLsbD_seven, decide_eq_true_eq] at hNset
  rw [hZ, decide_eq_true_eq] at hZset
  omega

/-- Settles O20: there is no response at reset. -/
theorem resetFlagsAgree : Obligations.ResetFlagsAgree := by
  intro r hr
  rw [State.reset_responses] at hr
  exact absurd hr List.not_mem_nil

/-! ### `ADD.BIN` as the sum of numbers, unsigned and signed -/

/-- R106: the two's-complement reading of a byte. -/
theorem toInt_byte (x : Byte) : x.toInt = if 128 ≤ x.toNat then (x.toNat : Int) - 256 else x.toNat := by
  rw [BitVec.toInt_eq_toNat_cond]
  split <;> split <;> omega

/-- Settles O26: the sum is conserved, and C says that it reaches 256. -/
theorem addBinIsTheFullSum : Obligations.AddBinIsTheFullSum := by
  intro a v c r
  have hcarry : r.C = _ := (addBin_result_and_carry a v c).2
  refine ⟨addBinResponse_conserves a v c, ?_⟩
  rw [hcarry, decide_eq_true_eq]
  omega

/-- Settles O27: only a sum of equal signs can leave the range, and it does so exactly when bit 7 of the result is the
other sign. -/
theorem addBinOverflowIsSignedOverflow : Obligations.AddBinOverflowIsSignedOverflow := by
  intro a v c
  obtain ⟨hresult, -⟩ := addBin_result_and_carry a v c
  have hc := c.toNat_le
  rw [addBin_overflow, decide_eq_true_eq]
  simp only [getLsbD_seven, hresult, ne_eq, decide_eq_decide, toInt_byte]
  split <;> split <;> omega

/-! ### Subtraction as addition of the complement (R112) -/

theorem xor_ones_eq_not (x : Byte) : x ^^^ 0xFF#8 = ~~~x := BitVec.xor_allOnes

theorem toNat_xor_ones (x : Byte) : (x ^^^ 0xFF#8).toNat = 255 - x.toNat := by
  rw [xor_ones_eq_not, BitVec.toNat_not]

/-- The complement of a byte reads as one less than its negative. -/
theorem toInt_xor_ones (x : Byte) : (x ^^^ 0xFF#8).toInt = -x.toInt - 1 := by
  have := x.isLt
  rw [toInt_byte, toInt_byte, toNat_xor_ones]
  split <;> split <;> omega

/-- R9: a multiple of 256 is lost in truncation. -/
theorem truncate_add_256 (n : Int) : truncate (n + 256) = truncate n := by
  rw [truncate, Int.add_emod_right, truncate]

/-- R112: the sum with the complement is the difference and 256. -/
theorem addBinWide_xor_ones (a v : Byte) (c : Bool) :
    (addBinWide a (v ^^^ 0xFF#8) c : Int) = subWide0 a v c + 256 := by
  have := v.isLt
  rw [addBinWide, toNat_xor_ones, subWide0]
  omega

/-- R112: operands that differ in sign are those that agree in sign after the complement. -/
theorem flagVAdd_xor_ones (a v : Byte) (n : Int) :
    flagVAdd a (v ^^^ 0xFF#8) (byteSign (truncate n)) = flagVSub a v n := by
  have hsign : byteSign (v ^^^ 0xFF#8) = !byteSign v := by
    rw [byteSign_eq_getLsbD, byteSign_eq_getLsbD, BitVec.getLsbD_xor]
    exact Bool.xor_true _
  rw [flagVAdd, flagVSub, hsign, sign_eq_byteSign_truncate]
  cases byteSign a <;> cases byteSign v <;> cases byteSign (truncate n) <;> rfl

/-- R112: `SUB.BIN` is `ADD.BIN` of the complement. -/
theorem respond_subBin_eq_addBin (a v : Byte) (c : Bool) :
    respond (.subBin a v c) = respond (.addBin a (v ^^^ 0xFF#8) c) := by
  have hwide := addBinWide_xor_ones a v c
  have hresult : truncate (addBinWide a (v ^^^ 0xFF#8) c) = truncate (subWide0 a v c) := by
    rw [hwide, truncate_add_256]
  have hcarry : flagCAdd (addBinWide a (v ^^^ 0xFF#8) c) = flagCSub (subWide0 a v c) :=
    decide_eq_decide.2 (by omega)
  simp only [respond, subBinResponse, addBinResponse, hresult, hcarry, flagVAdd_xor_ones]

/-- Settles O39: the two responses are equal, and for `0x00, 0x00, 1` the Decimal ones are not. -/
theorem subBinIsAddBinOfComplement : Obligations.SubBinIsAddBinOfComplement :=
  ⟨respond_subBin_eq_addBin, 0x00, 0x00, true, by decide⟩

/-! ### `SUB.BIN` as the difference of numbers, unsigned and signed -/

/-- R109, R117: without an incoming borrow, C of both Subtract operations compares the operands. -/
theorem sub_carry_compares (a v : Byte) :
    (respond (.subBin a v true)).C = decide (v.toNat ≤ a.toNat) ∧
      (respond (.subDec a v true)).C = decide (v.toNat ≤ a.toNat) := by
  have hcompare : 0 ≤ subWide0 a v true ↔ v.toNat ≤ a.toNat := by
    rw [subWide0, carryNumber_true]
    omega
  obtain ⟨hbin, hdec⟩ := sub_carry a v true
  exact ⟨hbin.trans (decide_eq_decide.2 hcompare), hdec.trans (decide_eq_decide.2 hcompare)⟩

/-- R109: without an incoming borrow, Z of `SUB.BIN` says that the operands are equal. -/
theorem subBin_zero_compares (a v : Byte) : (respond (.subBin a v true)).Z = decide (a = v) := by
  rw [Bool.eq_iff_iff, subBin_zero_iff, decide_eq_true_eq, ← BitVec.toNat_inj, subWide0, carryNumber_true]
  omega

/-- Settles O37: result and carry conserve the sum with the complement, which is the difference and 256. -/
theorem subBinIsTheTrueDifference : Obligations.SubBinIsTheTrueDifference := by
  intro a v c r
  have hsum : r.result.toNat + 256 * r.C.toNat = _ := subBinResponse_conserves a v c
  have hcarry : r.C = _ := (sub_carry a v c).1
  refine ⟨by omega, ?_, ?_⟩
  · rw [hcarry, decide_eq_false_iff_not, subWide0_eq]
    omega
  · rintro rfl
    exact ⟨(sub_carry_compares a v).1, subBin_zero_compares a v⟩

/-- Settles O38: by the complement law it is the signed overflow of the sum with `-v - 1`. -/
theorem subBinOverflowIsSignedOverflow : Obligations.SubBinOverflowIsSignedOverflow := by
  intro a v c
  rw [respond_subBin_eq_addBin, addBinOverflowIsSignedOverflow, toInt_xor_ones]
  omega

/-- Settles O47: Subtract takes V and C from the same difference in both modes; in Add, `0x79 + 0x01` overflows and
`0x99 + 0x01` carries in Decimal mode only. -/
theorem subtractCarryAndOverflowIgnoreTheMode : Obligations.SubtractCarryAndOverflowIgnoreTheMode := by
  refine ⟨fun a v c => ?_, ⟨0x79, 0x01, false, by decide⟩, ⟨0x99, 0x01, false, by decide⟩⟩
  obtain ⟨hVbin, hVdec⟩ := sub_overflow a v c
  obtain ⟨hCbin, hCdec⟩ := sub_carry a v c
  exact ⟨hVdec.trans hVbin.symm, hCdec.trans hCbin.symm⟩

/-! ### Commutativity (R115) -/

theorem flagVAdd_comm (a v : Byte) (signOut : Bool) : flagVAdd a v signOut = flagVAdd v a signOut := by
  rw [flagVAdd, flagVAdd]
  cases byteSign a <;> cases byteSign v <;> rfl

theorem addBinWide_comm (a v : Byte) (c : Bool) : addBinWide a v c = addBinWide v a c := by
  rw [addBinWide, addBinWide, Nat.add_comm a.toNat]

theorem addDecLow_comm (a v : Byte) (c : Bool) : addDecLow a v c = addDecLow v a c := by
  rw [addDecLow, addDecLow, Nat.add_comm (lowNibble a)]

theorem addDecHigh_comm (a v : Byte) : addDecHigh a v = addDecHigh v a := Nat.add_comm _ _

theorem addDecHighAtV_comm (a v : Byte) (c : Bool) : addDecHighAtV a v c = addDecHighAtV v a c := by
  rw [addDecHighAtV_eq, addDecHighAtV_eq, addDecLow_comm, addDecHigh_comm]

theorem addDecHighCorrected_comm (a v : Byte) (c : Bool) :
    addDecHighCorrected a v c = addDecHighCorrected v a c := by
  rw [addDecHighCorrected_eq, addDecHighCorrected_eq, addDecHighAtV_comm]

theorem addDecResult_comm (a v : Byte) (c : Bool) : addDecResult a v c = addDecResult v a c := by
  rw [addDecResult, addDecResult, addDecLowCorrected_eq, addDecLowCorrected_eq, addDecLow_comm,
    addDecHighCorrected_comm]

theorem addBinResponse_comm (a v : Byte) (c : Bool) : addBinResponse a v c = addBinResponse v a c := by
  simp only [addBinResponse, addBinWide_comm a v, flagVAdd_comm a v]

theorem addDecResponse_comm (a v : Byte) (c : Bool) : addDecResponse a v c = addDecResponse v a c := by
  rw [addDecResponse, addDecResponse, addDecResult_comm, flagVAdd_comm, addDecHighAtV_comm, addDecHighCorrected_comm]

/-- Settles O45: every step of both Add operations is symmetric, and `0x01 - 0x00` is not `0x00 - 0x01`. -/
theorem addIsCommutative : Obligations.AddIsCommutative :=
  ⟨fun a v c => ⟨addBinResponse_comm a v c, addDecResponse_comm a v c⟩, ⟨0x01, 0x00, true, by decide⟩,
    ⟨0x01, 0x00, true, by decide⟩⟩

/-! ### Inverses (R116, R118) -/

theorem toNat_add_toNat_not (c : Bool) : c.toNat + (!c).toNat = 1 := by cases c <;> rfl

/-- R116: subtracting what was added leaves the two carry-ins, less the one that Subtract takes as no borrow. -/
theorem subBin_addBin_result (a v : Byte) (c d : Bool) :
    ((respond (.subBin (respond (.addBin a v c)).result v d)).result.toNat : Int) =
      (a.toNat + c.toNat + d.toNat - 1) % 256 := by
  obtain ⟨hsum, -⟩ := addBin_result_and_carry a v c
  rw [subBin_result, subWide0_eq, hsum]
  omega

/-- R116: with complementary carry-ins nothing is left. -/
theorem subBin_addBin_inverse (a v : Byte) (c : Bool) :
    (respond (.subBin (respond (.addBin a v c)).result v (!c))).result = a := by
  have hresult := subBin_addBin_result a v c (!c)
  have hcarries := toNat_add_toNat_not c
  have := a.isLt
  exact BitVec.eq_of_toNat_eq (by omega)

/-- Settles O46: the carry-ins count 1 together where they are complementary, and 2 where both are 1. -/
theorem binaryAddAndSubtractAreInverse : Obligations.BinaryAddAndSubtractAreInverse := by
  intro a v
  have hboth : (respond (.subBin (respond (.addBin a v true)).result v true)).result = a + 1 := by
    have hresult := subBin_addBin_result a v true true
    have hone : (a + 1).toNat = (a.toNat + 1) % 256 := BitVec.toNat_add a 1
    rw [Bool.toNat_true] at hresult
    exact BitVec.eq_of_toNat_eq (by omega)
  refine ⟨subBin_addBin_inverse a v false, subBin_addBin_inverse a v true, hboth, ?_⟩
  rw [hboth, ne_eq, add_eq_left]
  decide

/-- R118: a valid packed-BCD byte is determined by its number. -/
theorem dec_inj {x y : Byte} (hx : validBcd x = true) (hy : validBcd y = true) : dec x = dec y ↔ x = y := by
  refine ⟨fun h => BitVec.eq_of_toNat_eq ?_, congrArg dec⟩
  rw [toNat_of_validBcd hx, toNat_of_validBcd hy, h]

theorem dec_eq_zero_iff (x : Byte) : dec x = 0 ↔ x.toNat = 0 := by
  rw [dec]
  omega

/-- R118: on valid packed BCD both decimal sums are conserved, so with complementary carry-ins the number of `a` is
left. -/
theorem subDec_addDec_inverse {a v : Byte} (ha : validBcd a = true) (hv : validBcd v = true) (c : Bool) :
    (respond (.subDec (respond (.addDec a v c)).result v (!c))).result = a := by
  obtain ⟨hvalidSum, hsum⟩ := addDecResponse_conserves ha hv c
  obtain ⟨hvalid, hdifference⟩ := subDecResponse_conserves hvalidSum hv (!c)
  have hcarries := toNat_add_toNat_not c
  have haLt := dec_lt_of_validBcd ha
  have hvLt := dec_lt_of_validBcd hv
  have hlt := dec_lt_of_validBcd hvalid
  exact (dec_inj hvalid ha).1 (by omega)

/-- Settles O48: the inverse law on valid bytes; `0x0A + 0x00` is corrected to `0x10`, which Subtract leaves as it is. -/
theorem decimalAddAndSubtractAreInverse : Obligations.DecimalAddAndSubtractAreInverse :=
  ⟨fun _ _ ha hv => ⟨subDec_addDec_inverse ha hv false, subDec_addDec_inverse ha hv true⟩, 0x0A, 0x00, by decide⟩

/-! ### Comparison (R120) -/

/-- R120: the sign of the difference, corrected by its overflow, compares the operands as signed numbers. -/
theorem subBin_sign_xor_overflow (a v : Byte) :
    ((respond (.subBin a v true)).N ^^ (respond (.subBin a v true)).V) = decide (a.toInt < v.toInt) := by
  obtain ⟨hN, -⟩ := flagsAgree_respond (.subBin a v true)
  have hV := subBinOverflowIsSignedOverflow a v true
  have hresult := subBin_result a v true
  rw [subWide0, carryNumber_true] at hresult
  rw [Bool.eq_iff_iff, Bool.xor_iff_ne, hN, getLsbD_seven, ne_eq, Bool.eq_iff_iff, hV, decide_eq_true_eq,
    decide_eq_true_eq, Bool.toNat_true, toInt_byte, toInt_byte]
  split <;> split <;> omega

/-- R120: without an incoming borrow, Z of `SUB.DEC` says that two valid packed-BCD bytes are equal. -/
theorem subDec_zero_compares {a v : Byte} (ha : validBcd a = true) (hv : validBcd v = true) :
    (respond (.subDec a v true)).Z = decide (a = v) := by
  obtain ⟨hvalid, hsum⟩ := subDecResponse_conserves ha hv true
  have haLt := dec_lt_of_validBcd ha
  have hvLt := dec_lt_of_validBcd hv
  have hlt := dec_lt_of_validBcd hvalid
  rw [Bool.toNat_true] at hsum
  rw [(flagsAgree_respond _).2, decide_eq_decide, ← dec_eq_zero_iff, ← dec_inj ha hv, respond]
  omega

/-- Settles O49: each flag by its own comparison; `0x10 - 0x0A` is corrected to zero. -/
theorem subtractionComparesItsOperands : Obligations.SubtractionComparesItsOperands := by
  refine ⟨fun a v => ?_, 0x10, 0x0A, by decide⟩
  obtain ⟨hCbin, hCdec⟩ := sub_carry_compares a v
  exact ⟨subBin_zero_compares a v, hCbin, subBin_sign_xor_overflow a v, hCdec, subDec_zero_compares⟩

/-! ### The zero of a chain (R119) -/

/-- R113: N and Z agree with the result in every response of a chain. -/
theorem flagsAgree_chain {op : Op} {m : Mode} {c : Bool} {ps : List (Byte × Byte)} {r : Response}
    (h : r ∈ chain op m c ps) : FlagsAgree r := by
  rw [← map_eval_chainRequests] at h
  obtain ⟨q, -, rfl⟩ := List.mem_map.1 h
  exact flagsAgree_respond (instrOfRequest q)

theorem bytesValue_eq_zero_iff (xs : List Byte) : bytesValue xs = 0 ↔ ∀ x ∈ xs, x.toNat = 0 := by
  induction xs with
  | nil => simp [bytesValue]
  | cons x xs ih =>
    rw [List.forall_mem_cons, ← ih, bytesValue]
    omega

/-- Settles O55: a number is zero exactly when each of its bytes is, and Z says so of each. -/
theorem chainIsZeroWhenEveryByteIs : Obligations.ChainIsZeroWhenEveryByteIs := by
  intro op m c ps
  rw [bytesValue_eq_zero_iff, List.forall_mem_map]
  refine forall₂_congr fun r hr => ?_
  rw [(flagsAgree_chain hr).2, decide_eq_true_eq]

/-! ### The signed reading of n bytes (R106, R119) -/

theorem signedBytesValue_singleton (x : Byte) : signedBytesValue [x] = x.toInt := by
  rw [toInt_byte]
  simp only [signedBytesValue, bytesValue, List.length_singleton, pow_one]
  split_ifs <;> omega

/-- Half the range of n bytes, for n at least 1, is a whole number. -/
theorem exists_half_pow {n : Nat} (hn : n ≠ 0) : ∃ half : Nat, 256 ^ n = 2 * half ∧ (256 : Int) ^ n = 2 * half := by
  obtain ⟨half, hhalf⟩ : 2 ∣ 256 ^ n := dvd_pow (by decide) hn
  exact ⟨half, hhalf, by exact_mod_cast hhalf⟩

/-- The sign of a number of several bytes is in its higher bytes. -/
theorem signedBytesValue_cons (x : Byte) {xs : List Byte} (h : xs ≠ []) :
    signedBytesValue (x :: xs) = x.toNat + 256 * signedBytesValue xs := by
  obtain ⟨half, hnat, hint⟩ := exists_half_pow (List.length_pos_iff.2 h).ne'
  have := x.isLt
  simp only [signedBytesValue, bytesValue, List.length_cons, pow_succ, hnat, hint]
  split <;> split <;> omega

/-- A number of n bytes is negative exactly when bit 7 of its most significant byte is set. -/
theorem signedBytesValue_neg_iff {xs : List Byte} {x : Byte} (h : xs.getLast? = some x) :
    signedBytesValue xs < 0 ↔ x.getLsbD 7 = true := by
  induction xs with
  | nil => simp at h
  | cons y ys ih =>
    cases ys with
    | nil =>
      obtain rfl : y = x := by simpa using h
      rw [signedBytesValue_singleton, toInt_byte, getLsbD_seven, decide_eq_true_eq]
      split <;> omega
    | cons z zs =>
      rw [← ih (by simpa using h), signedBytesValue_cons y (List.cons_ne_nil z zs)]
      omega

/-- R112: the complement of n bytes reads as one less than the negative. -/
theorem signedBytesValue_map_xor_ones {ys : List Byte} (h : ys ≠ []) :
    signedBytesValue (ys.map (· ^^^ 0xFF#8)) = -signedBytesValue ys - 1 := by
  induction ys with
  | nil => exact absurd rfl h
  | cons y ys ih =>
    cases ys with
    | nil => rw [List.map_singleton, signedBytesValue_singleton, signedBytesValue_singleton, toInt_xor_ones]
    | cons z zs =>
      have hrest := ih (List.cons_ne_nil z zs)
      rw [List.map_cons, signedBytesValue_cons _ (by simp), hrest, toNat_xor_ones,
        signedBytesValue_cons y (List.cons_ne_nil z zs)]
      omega

/-! ### V and N of the last evaluation of a Binary chain (R119) -/

/-- R119: N of the last evaluation is the sign of the result of the whole chain. -/
theorem chain_last_sign {op : Op} {m : Mode} {c : Bool} {ps : List (Byte × Byte)} {r : Response}
    (h : (chain op m c ps).getLast? = some r) :
    r.N = true ↔ signedBytesValue ((chain op m c ps).map Response.result) < 0 := by
  have hlast : ((chain op m c ps).map Response.result).getLast? = some r.result := by
    rw [List.getLast?_map, h, Option.map_some]
  rw [signedBytesValue_neg_iff hlast, (flagsAgree_chain (List.mem_of_getLast? h)).1]

/-- R106, R119: a number that n bytes hold as two's complement. -/
def FitsSigned (n : Nat) (x : Int) : Prop := -(256 ^ n : Int) ≤ 2 * x ∧ 2 * x < 256 ^ n

theorem fitsSigned_one_iff (x : Int) : FitsSigned 1 x ↔ -128 ≤ x ∧ x ≤ 127 := by
  rw [FitsSigned, pow_one]
  omega

/-- A least significant byte does not take the higher ones into the signed range, or out of it. -/
theorem fitsSigned_succ_iff {n : Nat} (hn : n ≠ 0) (x : Byte) (high : Int) :
    FitsSigned (n + 1) (x.toNat + 256 * high) ↔ FitsSigned n high := by
  obtain ⟨half, -, hint⟩ := exists_half_pow hn
  have := x.isLt
  rw [FitsSigned, FitsSigned, pow_succ, hint]
  omega

/-- R108, R119: the least significant bytes add to a byte of the sum, and their carry enters the sum of the others. -/
theorem signedBytesValue_cons_add_cons (x y : Byte) (c : Bool) {xs ys : List Byte} (hxs : xs ≠ []) (hys : ys ≠ []) :
    signedBytesValue (x :: xs) + signedBytesValue (y :: ys) + c.toNat =
      (addBinResponse x y c).result.toNat +
        256 * (signedBytesValue xs + signedBytesValue ys + (addBinResponse x y c).C.toNat) := by
  have hbyte := addBinResponse_conserves x y c
  rw [signedBytesValue_cons x hxs, signedBytesValue_cons y hys]
  omega

/-- R110, R119: V of the last evaluation of an `ADD.BIN` chain is the signed overflow of the whole sum. The
sum of the higher bytes alone decides the range. -/
theorem addBin_chain_last_overflow {c : Bool} {ps : List (Byte × Byte)} {r : Response}
    (h : (chain .add .binary c ps).getLast? = some r) :
    r.V = true ↔ ¬ FitsSigned ps.length
      (signedBytesValue (ps.map Prod.fst) + signedBytesValue (ps.map Prod.snd) + c.toNat) := by
  induction ps generalizing c with
  | nil => simp at h
  | cons p ps ih =>
    obtain ⟨x, y⟩ := p
    cases ps with
    | nil =>
      obtain rfl : respond (.addBin x y c) = r := Option.some.inj h
      rw [addBinOverflowIsSignedOverflow, List.length_singleton, fitsSigned_one_iff, List.map_singleton,
        List.map_singleton, signedBytesValue_singleton, signedBytesValue_singleton]
    | cons q qs =>
      have hsum := signedBytesValue_cons_add_cons x y c (xs := (q :: qs).map Prod.fst) (ys := (q :: qs).map Prod.snd)
        (by simp) (by simp)
      rw [List.map_cons (a := (x, y)), List.map_cons (a := (x, y)), hsum, List.length_cons,
        fitsSigned_succ_iff (by simp)]
      exact ih h

/-- R112, R119: a `SUB.BIN` chain is the `ADD.BIN` chain of the complement. -/
theorem chain_subBin_eq_addBin (c : Bool) (ps : List (Byte × Byte)) :
    chain .subtract .binary c ps = chain .add .binary c (ps.map (Prod.map id (· ^^^ 0xFF#8))) := by
  induction ps generalizing c with
  | nil => rfl
  | cons p ps ih =>
    obtain ⟨x, y⟩ := p
    have heval : eval ⟨.subtract, .binary, c, x, y⟩ = eval ⟨.add, .binary, c, x, y ^^^ 0xFF#8⟩ :=
      respond_subBin_eq_addBin x y c
    rw [chain_cons, heval, ih]
    rfl

/-- R111, R119: V of the last evaluation of a `SUB.BIN` chain is the signed overflow of the whole difference. -/
theorem subBin_chain_last_overflow {ps : List (Byte × Byte)} {r : Response}
    (h : (chain .subtract .binary true ps).getLast? = some r) :
    r.V = true ↔ ¬ FitsSigned ps.length
      (signedBytesValue (ps.map Prod.fst) - signedBytesValue (ps.map Prod.snd)) := by
  have hne : ps.map Prod.snd ≠ [] := by
    rw [ne_eq, List.map_eq_nil_iff]
    rintro rfl
    simp at h
  have hcomplement := signedBytesValue_map_xor_ones hne
  rw [chain_subBin_eq_addBin] at h
  have hV := addBin_chain_last_overflow h
  have hfst : (ps.map (Prod.map id (· ^^^ 0xFF#8))).map Prod.fst = ps.map Prod.fst := by simp
  have hsnd : (ps.map (Prod.map id (· ^^^ 0xFF#8))).map Prod.snd = (ps.map Prod.snd).map (· ^^^ 0xFF#8) := by simp
  rw [List.length_map, hfst, hsnd, hcomplement, Bool.toNat_true, Nat.cast_one, ← add_sub_assoc, sub_add_cancel,
    ← sub_eq_add_neg] at hV
  exact hV

/-- Settles O54: the last byte has the sign and the overflow of the whole, in the sum and, as the sum with the
complement, in the difference. -/
theorem lastFlagsOfABinaryChain : Obligations.LastFlagsOfABinaryChain := by
  refine ⟨fun ps r h => ⟨?_, chain_last_sign h⟩, fun ps r h => ⟨subBin_chain_last_overflow h, chain_last_sign h⟩⟩
  have hV := addBin_chain_last_overflow h
  rw [Bool.toNat_false, Nat.cast_zero, add_zero] at hV
  exact hV

end Sys2Proof.Proofs
end

section
/-! PROOFS. Fetch words: a number read as an operation is the request taken by the very next step. -/

namespace Sys2Proof.Proofs

open Sys2Proof Sys2Proof.Machine

/-- R57, R145: a number below 2^19 waits first, as the request of its 19-bit word. -/
theorem withFetchWord_of_lt (s : State) (nbits : Nat) {w : Nat} (h : w < 2 ^ 19) :
    s.withFetchWord nbits w = ⟨requestOfWord (BitVec.ofNat 19 w) :: s.requests, s.responses⟩ :=
  State.withFetchWord_of_request (requestOfNumber_of_lt h) s nbits

/-- Settles O14: only a number below 2^19 is read as an operation, and its word is the request that the step takes. -/
theorem fetchWordRunsNext : Obligations.FetchWordRunsNext := by
  intro nbits w s i hdecode
  by_cases hw : w < 2 ^ 19
  case pos =>
    rw [decodeTableWord_of_lt nbits hw] at hdecode
    obtain rfl : decode (BitVec.ofNat 19 w) = i := Option.some.inj hdecode
    rw [withFetchWord_of_lt s nbits hw]
    exact stepEvaluatesTheNextRequest.1 (BitVec.ofNat 19 w) s.requests s.responses
  case neg =>
    rw [decodeTableWord_of_le nbits (Nat.not_lt.1 hw)] at hdecode
    cases hdecode

end Sys2Proof.Proofs
end

section
/-! PROOFS. The idle step: where the caller presents nothing, nothing is taken and nothing is evaluated. -/

namespace Sys2Proof.Proofs

open Sys2Proof Sys2Proof.Machine

/-- Log entry 3: a step evaluates only what it takes, and with no request presented it takes nothing. -/
theorem step_of_requests_eq_nil {s : State} (h : s.requests = []) : step s = .next s := by
  have htake : takeRequest s = none := takeRequest_eq_none.2 h
  simp only [step, htake]

/-- Settles O15: a state whose list of requests is empty presents nothing, whatever responses it holds. -/
theorem stepWithoutRequestChangesNothing : Obligations.StepWithoutRequestChangesNothing :=
  fun _ => step_of_requests_eq_nil rfl

end Sys2Proof.Proofs
end
